-- ==== Sys2Proof/Config.lean ====
section
/-! DEFINITION. The parameters of the block, R7. `IN_LEN_W` is open there (D5, U11): lengths and input
positions are natural numbers in this model (log 3), so it needs no constant here. The spec leaves no value free
after an instruction, so there is no free value here either. -/

namespace Sys2Proof

/-- `TABLE_CAP`: "Code table capacity is fixed at 4096 entries" (R7). -/
def Config.tableCap : Nat := 4096

/-- `MAX_CODE_WIDTH`: "up to a maximum code width of 12 bits" (R7). -/
def Config.maxCodeWidth : Nat := 12

/-- The least legal `MIN_CODE_SIZE` (R7, D3). -/
def Config.minCodeSizeLow : Nat := 2

/-- The greatest legal `MIN_CODE_SIZE` (R7, D3). -/
def Config.minCodeSizeHigh : Nat := 8

/-- `STK_DEPTH`, slots of the emit stack (R7, R36). -/
def Config.stackDepth : Nat := 4096

end Sys2Proof
end

