-- ==== Sys2Proof/Word.lean ====
section
/-! DEFINITION. The word types of the block: R7 (widths of a symbol and of a code). -/

namespace Sys2Proof

/-- A byte of `IN` (R61), and the byte the host gives as `MIN_CODE_SIZE` (R24). -/
abbrev Byte := BitVec 8

/-- A symbol, one colour-table index: `SYM_W` = 8 bits (R7). -/
abbrev Sym := BitVec 8

/-- A code value used zero-extended to 12 bits: `CODE_W` = 12 bits (R7, R92). -/
abbrev Code := BitVec 12

end Sys2Proof
end

