-- ==== Sys2Proof/Syntax.lean ====
section
/-! DEFINITION. The instructions: one constructor per row of spec/opcode_table.json, in its order. -/

namespace Sys2Proof

/-- The six code classes of R95 and the host command `START` of R120. A data code and an invalid code carry the
code as read, zero-extended to 12 bits (R92); `CLEAR` and `EOI` have no operand (R140, R142). -/
inductive Instr where
  /-- `CLEAR`, R140. -/
  | clear
  /-- `EOI`, R142. -/
  | eoi
  /-- `INVALID`, R144 and R145, with the code read. -/
  | invalid (code : Code)
  /-- `LIT`, R166: the code is the symbol. -/
  | lit (code : Code)
  /-- `ENTRY`, R167: the code is a table index. -/
  | entry (code : Code)
  /-- `KWKWK`, R168: the code equals `AVAIL`. -/
  | kwkwk (code : Code)
  /-- `START(MIN_CODE_SIZE, PIXEL_COUNT, IN_LEN)`, R120. -/
  | start (minCodeSize : Byte) (pixelCount : BitVec 32) (inputLength : Nat)
  deriving DecidableEq, Repr

end Sys2Proof
end

