-- ==== Sys2Proof/WellFormed.lean ====
section
/-! DEFINITION. The registers that decide the class of a code (R95), and the check that an instruction is one that a
decoder with those registers can read: the conditions of R95, the width of R90, the range of R121. -/

namespace Sys2Proof

/-- What a decoder looks at besides the bits: `CLEARCODE`, `EOICODE`, `AVAIL`, `PREVV` (R95) and `CODESIZE` (R91). -/
structure CodeRegs where
  clearCode : BitVec 9
  eoiCode : BitVec 9
  avail : BitVec 13
  prevV : Bool
  codeSize : BitVec 4
  deriving DecidableEq, Repr

/-- What R25, R40, R41, R48 and R97 say of these registers in every launched state. -/
abbrev CodeRegs.Legal (r : CodeRegs) : Prop :=
  r.eoiCode.toNat = r.clearCode.toNat + 1 ∧ r.clearCode.toNat + 2 ≤ r.avail.toNat ∧ r.avail.toNat ≤ Config.tableCap ∧
    r.codeSize.toNat ≤ Config.maxCodeWidth ∧ (r.prevV = false → r.avail.toNat = r.clearCode.toNat + 2)

/-- A code of `w` bits (R90). -/
def Code.fits (c : Code) (w : Nat) : Bool := decide (c.toNat < 2 ^ w)

/-- The instruction meets the condition of its row in R95 (for `START`, the range of R121) and its code fits
the width of R90. -/
def Instr.wf (r : CodeRegs) : Instr → Bool
  | .clear => decide (r.clearCode.toNat < 2 ^ r.codeSize.toNat)
  | .eoi => decide (r.eoiCode.toNat < 2 ^ r.codeSize.toNat)
  | .invalid c => Code.fits c r.codeSize.toNat &&
      (decide (r.avail.toNat < c.toNat) || (decide (c.toNat = r.avail.toNat) && !r.prevV))
  | .lit c => Code.fits c r.codeSize.toNat && decide (c.toNat < r.clearCode.toNat)
  | .entry c => Code.fits c r.codeSize.toNat && decide (r.clearCode.toNat + 2 ≤ c.toNat) && decide (c.toNat < r.avail.toNat)
  | .kwkwk c => Code.fits c r.codeSize.toNat && decide (c.toNat = r.avail.toNat) && r.prevV
  | .start m _ _ => decide (Config.minCodeSizeLow ≤ m.toNat) && decide (m.toNat ≤ Config.minCodeSizeHigh)

end Sys2Proof
end

