-- ==== Sys2Proof/Decode.lean ====
section
/-! DEFINITION. From bits to an instruction and back: R69 (bit order), R90 to R92 (the one format), R95 and
R103 (the class, by the conditions in the table's order), R101 (packing bits into bytes). The decoder is total: it
answers an instruction or names why there is none. `START` is not a code (R103): it has no bits in `IN`; the layout of
its arguments at the end of this file serves the host's question only (log 17). -/

namespace Sys2Proof

/-- Why bits are no instruction. -/
inductive DecodeError where
  /-- Fewer bits than `CODESIZE` are left: a code is never padded (R127). Safe: nothing is decoded. -/
  | tooFewBits
  /-- The code meets no condition of R95, which needs `EOICODE` other than `CLEARCODE + 1` (R48 rules it out). Safe. -/
  | noClass
  deriving DecidableEq, Repr

/-- The number whose bit `j` is element `j` of the list: the first bit met is the least significant (R69). -/
def natOfBits : List Bool → Nat
  | [] => 0
  | b :: bs => (if b then 1 else 0) + 2 * natOfBits bs

/-- The `w` low bits of `n`, least significant first (R69). -/
def bitsOfNat : Nat → Nat → List Bool
  | 0, _ => []
  | w + 1, n => decide (n % 2 = 1) :: bitsOfNat w (n / 2)

/-- The bit string of a byte sequence: bit `k` is bit `k mod 8` of byte `k div 8` (R69). -/
def bitsOfBytes : List Byte → List Bool
  | [] => []
  | b :: bs => bitsOfNat 8 b.toNat ++ bitsOfBytes bs

/-- One step of the packing of R101: the low eight bits make a byte, missing ones being zero. -/
def packByte (bs : List Bool) : Byte := BitVec.ofNat 8 (natOfBits (bs.take 8))

/-- `n` bytes from a bit string, low bits first, zero bits after its end (R101). -/
def packBytesN : Nat → List Bool → List Byte
  | 0, _ => []
  | n + 1, bs => packByte bs :: packBytesN n (bs.drop 8)

/-- The bytes of a bit string, `ceil(p / 8)` of them (R101). -/
def packBytes (bs : List Bool) : List Byte := packBytesN ((bs.length + 7) / 8) bs

/-- The class of a code: the conditions of R95 in the order of the table (R103). -/
def classify (r : CodeRegs) (c : Code) : Except DecodeError Instr :=
  if c.toNat = r.clearCode.toNat then .ok .clear
  else if c.toNat = r.eoiCode.toNat then .ok .eoi
  else if r.avail.toNat < c.toNat ∨ (c.toNat = r.avail.toNat ∧ r.prevV = false) then .ok (.invalid c)
  else if c.toNat < r.clearCode.toNat then .ok (.lit c)
  else if r.clearCode.toNat + 2 ≤ c.toNat ∧ c.toNat < r.avail.toNat then .ok (.entry c)
  else if c.toNat = r.avail.toNat ∧ r.prevV = true then .ok (.kwkwk c)
  else .error .noClass

/-- Read one instruction of `CODESIZE` bits from the front of a bit string; the rest of the string is handed back
(R90 to R92). -/
def decode (r : CodeRegs) (bits : List Bool) : Except DecodeError (Instr × List Bool) :=
  if bits.length < r.codeSize.toNat then .error .tooFewBits
  else
    match classify r (BitVec.ofNat 12 (natOfBits (bits.take r.codeSize.toNat))) with
    | .ok i => .ok (i, bits.drop r.codeSize.toNat)
    | .error e => .error e

/-- The code value of an instruction under the registers (R96 for `CLEAR` and `EOI`); `START` is no code (R103). -/
def codeOf (r : CodeRegs) : Instr → Option Nat
  | .clear => some r.clearCode.toNat
  | .eoi => some r.eoiCode.toNat
  | .invalid c => some c.toNat
  | .lit c => some c.toNat
  | .entry c => some c.toNat
  | .kwkwk c => some c.toNat
  | .start _ _ _ => none

/-- The bits of an instruction: its code value in `CODESIZE` bits, least significant first (R101). `START` has
none. -/
def encode (r : CodeRegs) (i : Instr) : List Bool :=
  match codeOf r i with
  | some v => bitsOfNat r.codeSize.toNat v
  | none => []

/-- Bits of `START`'s arguments laid out one after another, `MIN_CODE_SIZE` (8), `PIXEL_COUNT` (32), `IN_LEN` (32, the
default width of R7). The spec gives no such layout: DESIGN CHOICE, log 17. -/
def startWordBits : Nat := 72

/-- `START` from the bits of its three arguments (log 17). -/
def decodeStart (w : Nat) : Instr :=
  .start (BitVec.ofNat 8 w) (BitVec.ofNat 32 (w / 2 ^ 8)) (w / 2 ^ 40 % 2 ^ 32)

/-- The bits of `START`'s three arguments (log 17). -/
def encodeStart (m : Byte) (n : BitVec 32) (len : Nat) : Nat :=
  m.toNat + 2 ^ 8 * n.toNat + 2 ^ 40 * (len % 2 ^ 32)

/-- The registers under which the host's question is answered: those of a reachable state in which every class
occurs, vector V2 of 96_test_vectors_data_codes.md after step 5 (log 17). -/
def probeRegs : CodeRegs :=
  { clearCode := 4, eoiCode := 5, avail := 9, prevV := true, codeSize := 4 }

/-- The instruction whose bits are `w`: `startWordBits` bits are `START`'s arguments, anything else is a code read under
`probeRegs`; a value that needs more than `CODESIZE` bits is no code (log 17). -/
def decodeTableWord (nbits w : Nat) : Option Instr :=
  if nbits = startWordBits then some (decodeStart w)
  else if 2 ^ probeRegs.codeSize.toNat ≤ w then none
  else
    match decode probeRegs (bitsOfNat 8 w) with
    | .ok (i, _) => some i
    | .error _ => none

end Sys2Proof
end

