-- ==== Sys2Proof/Machine/State.lean ====
section
/-! DEFINITION. The state of the block, R20, as plain data; the reasons a step can stop; the state after the power-on
reset, R39 and R220. -/

namespace Sys2Proof.Machine

/-- `PHASE` (R21); the value 3 is never produced, so it has no constructor. -/
inductive Phase where
  /-- 0: reset, never launched. -/
  | idle
  /-- 1: a `START` was accepted and no stop has happened. -/
  | run
  /-- 2: the run has stopped and `OUT` is complete. -/
  | done
  deriving DecidableEq, Repr

/-- `CAUSE` (R22); the values 5 to 7 are never produced, so they have no constructor. -/
inductive Cause where
  /-- 0: no stop yet. -/
  | none
  /-- 1: `pixelCount` indices were decoded (R190). -/
  | complete
  /-- 2: the end-of-information code was read first (R191). -/
  | eoi
  /-- 3: an invalid code was read (R192). -/
  | invalid
  /-- 4: the input ended before a whole code could be read (R193). -/
  | exhausted
  deriving DecidableEq, Repr

/-- One entry of the code table, both halves (R35): `pfx` is the spec's `prefix`, `sfx` its `suffix`. -/
structure Entry where
  pfx : Code
  sfx : Sym
  deriving DecidableEq, Repr

/-- A memory: pairs of an index and what it holds, indices strictly rising; an index that is not listed holds no
value (R39, R64, R66; log 2). With bytes this is a list of `Host.Cell`. -/
abbrev Memory (α : Type) := List (Nat × α)

/-- What the host may do between two steps (R234, R221); the list of them in the state is the model's own (log 4). -/
inductive HostMove where
  /-- The host does nothing; the block takes its own step. -/
  | wait
  /-- The command `START` (R120). -/
  | start (minCodeSize : Byte) (pixelCount : BitVec 32) (inputLength : Nat)
  /-- The host writes `IN`: the bytes of one frame, whole (R230, R231, R234; log 25). -/
  | writeIn (bytes : List Byte)
  /-- The platform applies the reset (R220, R221). -/
  | reset
  deriving DecidableEq, Repr

/-- The whole state of the block, R20, and the host's coming moves. -/
structure State where
  /-- `MINCS`, R24. -/
  mincs : BitVec 4
  /-- `CLEARCODE`, R25. -/
  clearCode : BitVec 9
  /-- `EOICODE`, R25. -/
  eoiCode : BitVec 9
  /-- `PIXCNT`, R26. -/
  pixCnt : BitVec 32
  /-- `INLEN`, R27; `IN_LEN_W` is open, so a natural number (log 3). -/
  inLen : Nat
  /-- `CODESIZE`, R28. -/
  codeSize : BitVec 4
  /-- `CODEMASK`, R28. -/
  codeMask : BitVec 12
  /-- `AVAIL`, R29. -/
  avail : BitVec 13
  /-- `BITBUF`, R30. -/
  bitBuf : BitVec 19
  /-- `BITCNT`, R30. -/
  bitCnt : BitVec 5
  /-- `INPOS`, R31; a natural number (log 3). -/
  inPos : Nat
  /-- `OUTPOS`, R32. -/
  outPos : BitVec 32
  /-- `PREVV`, R33: false is "empty". -/
  prevV : Bool
  /-- `PREV`, R33. -/
  prev : Code
  /-- `FIRST`, R34. -/
  firstSym : Sym
  /-- `PHASE`, R21. -/
  phase : Phase
  /-- `CAUSE`, R22. -/
  cause : Cause
  /-- `TBL`, R35, R65. -/
  tbl : List (Nat × Entry)
  /-- `STK`, R36, R68: the slots in use, top first; `SP` is their number (log 9). -/
  stk : List Sym
  /-- `IN`, R61: the bytes the host has supplied, from index 0 on (R231). -/
  inp : List Host.Cell
  /-- `OUT`, R63. -/
  out : List Host.Cell
  /-- The host's coming moves, one for each machine step; when the list is empty the host does nothing (log 4). -/
  host : List HostMove
  deriving DecidableEq, Repr

/-- Why the machine stops with a fault of the model. No state that meets the invariants of R40 to R48 reaches one; the
block itself raises none of them (R194). -/
inductive Fault where
  /-- Raised by the chain walk on a table entry that holds no value, as R66 asks. Safe: nothing is read. -/
  | tableEntryAbsent (code : Code)
  /-- Raised by `push` on a stack with no free slot, which R68 rules out. Safe: nothing is stored. -/
  | stackOverflow
  /-- Raised by the emission on an empty stack, which the walk rules out (R161). Safe: nothing is emitted. -/
  | stackEmpty
  deriving DecidableEq, Repr

/-- Why the model gives a move no meaning. -/
inductive Refusal where
  /-- Raised by `exec` on an instruction that has no meaning yet; no arm is left that raises it. Safe. -/
  | notModelled (mnemonic : String)
  /-- Raised by `START` with a `MIN_CODE_SIZE` outside 2 to 8, for which the spec defines no state (R121). Safe. -/
  | reservedMinCodeSize (minCodeSize : Byte)
  /-- Raised by `START` with an `IN_LEN` other than the number of bytes supplied (R231, U9; log 10). Safe. -/
  | inputLengthMismatch (inputLength supplied : Nat)
  /-- Raised by the fetch of a byte below `INLEN` whose index of `IN` holds no value, in states that no run reaches, since
  `START` has checked the length (R231; log 10). Safe. -/
  | inputNotSupplied (index : Nat)
  /-- Raised by the host's write of `IN` during a run (R232, U3; log 11). Safe. -/
  | inputWrittenInRun
  /-- Raised by a step on a code that meets no condition of R95, which R48 rules out (log 12). Safe. -/
  | unclassified (code : Code)
  deriving DecidableEq, Repr

/-- The state after the power-on reset: `PHASE` = `IDLE`, `CAUSE` = `NONE`, `SP` = 0 (R39, R220). Where R39 says "no
value", a register holds zero (DESIGN CHOICE, unsafe, log 1) and a memory lists nothing (log 2). -/
def State.reset : State :=
  { mincs := 0, clearCode := 0, eoiCode := 0, pixCnt := 0, inLen := 0, codeSize := 0, codeMask := 0, avail := 0
    bitBuf := 0, bitCnt := 0, inPos := 0, outPos := 0, prevV := false, prev := 0, firstSym := 0
    phase := .idle, cause := .none, tbl := [], stk := [], inp := [], out := [], host := [] }

end Sys2Proof.Machine
end

