-- ==== Sys2Proof/Machine/Ops.lean ====
section
/-! DEFINITION. The named operations: reading and writing a memory (R60, R73), the emit stack (R68), the chain walk
(R161), emission (R162), the stop sequence (R195), which is this block's way of taking an exception. There is no
return from a stop (R198): only `START` and the reset leave `DONE` (Launch.lean). -/

namespace Sys2Proof.Machine

/-- What index `a` holds; `none` is "no value" (R39, R64, R66). -/
def Memory.read {α : Type} : Memory α → Nat → Option α
  | [], _ => none
  | (b, v) :: m, a => if b = a then some v else Memory.read m a

/-- Pair values with the indices from `base` on. -/
def Memory.cells {α : Type} : Nat → List α → Memory α
  | _, [] => []
  | base, v :: vs => (base, v) :: Memory.cells (base + 1) vs

/-- Write the values at `base`, `base + 1`, and so on; every other index keeps what it holds. -/
def Memory.store {α : Type} (m : Memory α) (base : Nat) (vs : List α) : Memory α :=
  m.filter (fun c => decide (c.1 < base)) ++ Memory.cells base vs ++ m.filter (fun c => decide (base + vs.length ≤ c.1))

/-- The canonical form: indices strictly rising. An unlisted index holds no value, so no entry can equal what an
unlisted index reads as. -/
abbrev Memory.wf {α : Type} (m : Memory α) : Prop := m.Pairwise (fun x y => x.1 < y.1)

/-- The registers that decide the class of a code (R91, R95). -/
def State.codeRegs (s : State) : CodeRegs :=
  { clearCode := s.clearCode, eoiCode := s.eoiCode, avail := s.avail, prevV := s.prevV, codeSize := s.codeSize }

/-- The number of bytes of `IN` that the host has supplied (R230, R231). -/
def State.suppliedBytes (s : State) : Nat := s.inp.length

/-- `SP`: the number of stack slots in use (R36). -/
def State.sp (s : State) : Nat := s.stk.length

/-- `push(v)` (R68). -/
def push (v : Sym) (s : State) : Except Fault State :=
  if s.sp < Config.stackDepth then .ok { s with stk := v :: s.stk } else .error .stackOverflow

/-- `pop()` (R68); `none` on an empty stack, to which it is never applied. -/
def pop (s : State) : Option (Sym × State) :=
  match s.stk with
  | [] => none
  | v :: rest => some (v, { s with stk := rest })

/-- Popping until the stack is empty (R161): the symbols in the order they come off, and the state with `SP` = 0. -/
def popAll (s : State) : List Sym × State := (s.stk, { s with stk := [] })

/-- `WALK(c)` (R161): push suffixes along the chain until a base code, then that code as a symbol. Each round pushes
once, so one round more than the stack has slots always ends it. -/
def walkFrom : Nat → Code → State → Except Fault State
  | 0, _, _ => .error .stackOverflow
  | n + 1, t, s =>
    if t.toNat < s.clearCode.toNat then push (t.setWidth 8) s
    else
      match Memory.read s.tbl t.toNat with
      | none => .error (.tableEntryAbsent t)
      | some e =>
        match push e.sfx s with
        | .ok s' => walkFrom n e.pfx s'
        | .error f => .error f

/-- `WALK(c)` with rounds enough for any chain the stack can hold. -/
def walk (c : Code) (s : State) : Except Fault State := walkFrom (Config.stackDepth + 1) c s

/-- How many symbols of a string `emit` writes: `min(|s|, PIXCNT - OUTPOS)` (R162). -/
def State.emitCount (s : State) (str : List Sym) : Nat := min str.length (s.pixCnt.toNat - s.outPos.toNat)

/-- `emit(s)` (R162): write the symbols that fit at `OUTPOS`, advance `OUTPOS` by their number, discard the rest. -/
def emit (str : List Sym) (s : State) : State :=
  { s with
    out := Memory.store s.out s.outPos.toNat (str.take (s.emitCount str))
    outPos := BitVec.ofNat 32 (s.outPos.toNat + s.emitCount str) }

/-- `stop(c)` (R195): fill the positions from `OUTPOS` to the end with index 0, record the cause, enter `DONE`; nothing
else changes. -/
def stop (c : Cause) (s : State) : State :=
  { s with
    out := Memory.store s.out s.outPos.toNat (List.replicate (s.pixCnt.toNat - s.outPos.toNat) 0)
    cause := c
    phase := .done }

/-- Width growth (R164): when `AVAIL & CODEMASK` is zero and the width is below 12, one bit more. -/
def widen (s : State) : State :=
  if s.avail.toNat &&& s.codeMask.toNat = 0 ∧ s.codeSize.toNat < Config.maxCodeWidth then
    { s with
      codeSize := BitVec.ofNat 4 (s.codeSize.toNat + 1)
      codeMask := BitVec.ofNat 12 (s.codeMask.toNat <<< 1 ||| 1) }
  else s

/-- The entry `{prefix: PREV, suffix: f}` written at `AVAIL`, and `AVAIL` raised by one (R163). -/
def addEntry (f : Sym) (s : State) : State :=
  { s with
    tbl := Memory.store s.tbl s.avail.toNat [{ pfx := s.prev, sfx := f }]
    avail := BitVec.ofNat 13 (s.avail.toNat + 1) }

/-- Table add with the growth test that follows it (R163, R164): only with a previous code and room in the table. -/
def tableAdd (f : Sym) (s : State) : State :=
  if s.prevV = true ∧ s.avail.toNat < Config.tableCap then widen (addEntry f s) else s

/-- Previous-code update (R165). -/
def notePrev (code : Code) (f : Sym) (s : State) : State := { s with firstSym := f, prev := code, prevV := true }

/-- The end shared by the three data classes (R169): the string stands on the stack, its first symbol on top; pop it
all, emit it, add, grow, update. -/
def finishData (code : Code) (s : State) : Host.Outcome State Fault Refusal :=
  match (popAll s).1 with
  | [] => .fault .stackEmpty
  | f :: rest => .next (notePrev code f (tableAdd f (emit (f :: rest) (popAll s).2)))

end Sys2Proof.Machine
end

