-- ==== Sys2Proof/Machine/Control.lean ====
section
/-! DEFINITION. The meanings of `CLEAR`, `EOI` and `INVALID` (41_control_codes.md), on the state the fetch left. -/

namespace Sys2Proof.Machine

/-- The dictionary registers at their launch values, from `MINCS` and `CLEARCODE` (R140). -/
def resetDictionary (s : State) : State :=
  { s with
    codeSize := BitVec.ofNat 4 (s.mincs.toNat + 1)
    codeMask := BitVec.ofNat 12 (1 <<< (s.mincs.toNat + 1) - 1)
    avail := BitVec.ofNat 13 (s.clearCode.toNat + 2)
    prevV := false }

/-- `CLEAR` (R140). -/
def execClear (s : State) : Host.Outcome State Fault Refusal := .next (resetDictionary s)

/-- `EOI` (R142): `stop(EOI)`. -/
def execEoi (s : State) : Host.Outcome State Fault Refusal := .next (stop .eoi s)

/-- `INVALID` (R144, R145): `stop(INVALID)`; the code's value is recorded nowhere (R192). -/
def execInvalid (_code : Code) (s : State) : Host.Outcome State Fault Refusal := .next (stop .invalid s)

end Sys2Proof.Machine
end

