-- ==== Sys2Proof/Machine/Data.lean ====
section
/-! DEFINITION. The meanings of `LIT`, `ENTRY` and `KWKWK` (42_data_codes.md), on the state the fetch left. They
differ in the string they put on the stack only (R169). -/

namespace Sys2Proof.Machine

/-- `LIT` (R166): "one symbol is pushed and emitted". The first form, `PREVV` = 0, is the one in which `tableAdd` adds
nothing. -/
def execLit (code : Code) (s : State) : Host.Outcome State Fault Refusal :=
  match push (code.setWidth 8) s with
  | .ok s' => finishData code s'
  | .error f => .fault f

/-- `ENTRY` (R167): `Str(code)` by the chain walk. -/
def execEntry (code : Code) (s : State) : Host.Outcome State Fault Refusal :=
  match walk code s with
  | .ok s' => finishData code s'
  | .error f => .fault f

/-- `KWKWK` (R168): `push(FIRST)`, then `WALK(PREV)`, then pop everything. -/
def execKwkwk (code : Code) (s : State) : Host.Outcome State Fault Refusal :=
  match push s.firstSym s with
  | .ok s1 =>
    match walk s1.prev s1 with
    | .ok s2 => finishData code s2
    | .error f => .fault f
  | .error f => .fault f

end Sys2Proof.Machine
end

