-- ==== Sys2Proof/Machine/Launch.lean ====
section
/-! DEFINITION. The meaning of `START` (R120 to R123), and the host's other moves: the reset (R220, R221) and writing
`IN` (R230, R232, R234). -/

namespace Sys2Proof.Machine

/-- The seeded entries `0 .. clearCode - 1`: `prefix` 0, `suffix` the code (R122). -/
def seeds (clearCode : Nat) : List Entry :=
  (List.range clearCode).map (fun c => { pfx := 0, sfx := BitVec.ofNat 8 c })

/-- The writes of an accepted `START(m, n, len)` (R120, R122). `OUT` holds no value until written (R39, R64; log 8);
`PREV`, `FIRST`, `STK` and the other table entries stay as they are (R39). -/
def launch (m : Byte) (n : BitVec 32) (len : Nat) (s : State) : State :=
  { s with
    mincs := BitVec.ofNat 4 m.toNat
    clearCode := BitVec.ofNat 9 (1 <<< m.toNat)
    eoiCode := BitVec.ofNat 9 (1 <<< m.toNat + 1)
    avail := BitVec.ofNat 13 (1 <<< m.toNat + 2)
    codeSize := BitVec.ofNat 4 (m.toNat + 1)
    codeMask := BitVec.ofNat 12 (1 <<< (m.toNat + 1) - 1)
    pixCnt := n
    inLen := len
    tbl := Memory.store s.tbl 0 (seeds (1 <<< m.toNat))
    prevV := false
    bitBuf := 0
    bitCnt := 0
    inPos := 0
    outPos := 0
    out := []
    cause := .none
    phase := .run }

/-- `START(m, n, len)`: no effect in `RUN` (R123; the arguments are then not looked at, log 6); reserved outside 2 to 8
(R121); refused where `len` is not the number of bytes supplied, since `IN` is a sequence and `INLEN` its length (R231, U9;
log 10); otherwise the launch (R120). -/
def execStart (m : Byte) (n : BitVec 32) (len : Nat) (s : State) : Host.Outcome State Fault Refusal :=
  if s.phase = .run then .next s
  else if Config.minCodeSizeLow ≤ m.toNat ∧ m.toNat ≤ Config.minCodeSizeHigh then
    if s.suppliedBytes = len then .next (launch m n len s) else .refused (.inputLengthMismatch len s.suppliedBytes)
  else .refused (.reservedMinCodeSize m)

/-- The reset, at power-on or during a run: everything as after power-on; only the host's coming moves stay
(R220, R221; log 16). -/
def applyReset (s : State) : State := { State.reset with host := s.host }

/-- The host writes `IN`, in `IDLE` or `DONE` (R234): the bytes of one frame as a sequence (R231), from index 0 on; nothing
of an earlier frame is left (log 25). In `RUN` the model gives it no such move (R232, U3; log 11). -/
def hostWriteIn (bytes : List Byte) (s : State) : Host.Outcome State Fault Refusal :=
  if s.phase = .run then .refused .inputWrittenInRun
  else .next { s with inp := Memory.cells 0 bytes }

end Sys2Proof.Machine
end

