-- ==== Sys2Proof/Machine/Dispatch.lean ====
section
/-! DEFINITION. One arm per instruction, each a call of its meaning. -/

namespace Sys2Proof.Machine

def exec (i : Instr) (s : State) : Host.Outcome State Fault Refusal :=
  match i with
  | .clear => Sys2Proof.Machine.execClear s
  | .eoi => Sys2Proof.Machine.execEoi s
  | .invalid code => Sys2Proof.Machine.execInvalid code s
  | .lit code => Sys2Proof.Machine.execLit code s
  | .entry code => Sys2Proof.Machine.execEntry code s
  | .kwkwk code => Sys2Proof.Machine.execKwkwk code s
  | .start m n len => Sys2Proof.Machine.execStart m n len s

end Sys2Proof.Machine
end

