-- ==== Sys2Proof/Machine/Operands.lean ====
section
/-! DEFINITION. The one operand form, `CODE` (R90, R92): how the bits of a code come from `IN` through the bit buffer
(R30, R69, R126), and the program counter `BITPOS` (R31, R49). -/

namespace Sys2Proof.Machine

/-- `BITPOS = 8*INPOS - BITCNT` (R31, R49), the program counter. -/
def State.bitPos (s : State) : Nat := 8 * s.inPos - s.bitCnt.toNat

/-- Stream bit `k`: bit `k mod 8` of `IN[k div 8]` (R69); `none` where `IN` holds no value. -/
def State.streamBit (s : State) (k : Nat) : Option Bool :=
  (Memory.read s.inp (k / 8)).map (fun b => b.getLsbD (k % 8))

/-- Load one byte into the bit buffer (R126). -/
def loadByte (b : Byte) (s : State) : State :=
  { s with
    bitBuf := s.bitBuf ||| (b.setWidth 19 <<< s.bitCnt.toNat)
    bitCnt := BitVec.ofNat 5 (s.bitCnt.toNat + 8)
    inPos := s.inPos + 1 }

/-- What filling the bit buffer ends in. -/
inductive Filled where
  /-- `BITCNT >= CODESIZE`. -/
  | ready (s : State)
  /-- `INPOS == INLEN` and bits are missing (R127); the bytes loaded before stay loaded. -/
  | ended (s : State)
  /-- An index of `IN` below `INLEN` that holds no value, which no run has (R231; log 10). -/
  | absent (i : Nat)
  deriving DecidableEq, Repr

/-- The loop of `FETCH` (R126): load bytes while `BITCNT < CODESIZE`, at most as many as the first argument says. -/
def fillBuffer : Nat → State → Filled
  | 0, s => .ready s
  | n + 1, s =>
    if s.codeSize.toNat ≤ s.bitCnt.toNat then .ready s
    else if s.inPos = s.inLen then .ended s
    else
      match Memory.read s.inp s.inPos with
      | none => .absent s.inPos
      | some b => fillBuffer n (loadByte b s)

/-- The code in the buffer, `BITBUF & CODEMASK` (R92, R126). -/
def State.codeInBuffer (s : State) : Code := (s.bitBuf &&& s.codeMask.setWidth 19).setWidth 12

/-- Take the code's bits out of the buffer (R126). -/
def dropCode (s : State) : State :=
  { s with
    bitBuf := s.bitBuf >>> s.codeSize.toNat
    bitCnt := BitVec.ofNat 5 (s.bitCnt.toNat - s.codeSize.toNat) }

/-- What `FETCH` ends in. -/
inductive Fetched where
  /-- A code, and the state with the stream position moved past it. -/
  | code (c : Code) (s : State)
  /-- The input has ended (R127). -/
  | ended (s : State)
  /-- An index of `IN` below `INLEN` holds no value, which no run has (R231; log 10). -/
  | absent (i : Nat)
  deriving DecidableEq, Repr

/-- `FETCH` (R126). A code has at most 15 bits in a 4-bit `CODESIZE`, so two bytes always suffice. -/
def fetch (s : State) : Fetched :=
  match fillBuffer 2 s with
  | .ready s' => .code s'.codeInBuffer (dropCode s')
  | .ended s' => .ended s'
  | .absent i => .absent i

end Sys2Proof.Machine
end

