-- ==== Sys2Proof/Machine/Sequence.lean ====
section
/-! DEFINITION. The step of the block (R124): output-full test, fetch, classification and the operation of the class;
and the turn of the host, whose moves stand in the state (log 4). -/

namespace Sys2Proof.Machine

/-- One step in `RUN` (R124): the tests stand in the order of R197. -/
def codeStep (s : State) : Host.Outcome State Fault Refusal :=
  if s.outPos = s.pixCnt then .next (stop .complete s)
  else
    match fetch s with
    | .ended s' => .next (stop .exhausted s')
    | .absent i => .refused (.inputNotSupplied i)
    | .code c s' =>
      match classify s'.codeRegs c with
      | .ok i => exec i s'
      | .error _ => .refused (.unclassified c)

/-- What the block does on its own: "While `PHASE` = `RUN` the block repeats the step below; in `IDLE` and `DONE` it
does nothing" (R124, R210). -/
def blockStep (s : State) : Host.Outcome State Fault Refusal :=
  match s.phase with
  | .run => codeStep s
  | .idle => .next s
  | .done => .next s

/-- The host's move, or the block's own step where the host waits (R10, R234). -/
def hostTurn (m : HostMove) (s : State) : Host.Outcome State Fault Refusal :=
  match m with
  | .wait => blockStep s
  | .start a n len => exec (.start a n len) s
  | .writeIn bytes => hostWriteIn bytes s
  | .reset => .next (applyReset s)

/-- One transition of the machine: the host's next move, if it has one, else the block's own step. -/
def cycle (s : State) : Host.Outcome State Fault Refusal :=
  match s.host with
  | [] => blockStep s
  | m :: rest => hostTurn m { s with host := rest }

end Sys2Proof.Machine
end

