-- ==== Sys2Proof/Machine/Probe.lean ====
section
/-! DEFINITION. How the host's question "does step run this instruction" is put to a machine that is launched by a
command and reads codes of changing width (log 17). -/

namespace Sys2Proof.Machine

/-- The registers of a launched block in the state of vector V2 (96_test_vectors_data_codes.md) after step 5:
`START(2, 13, 3)` has run, five codes have been read from `IN[0..1]`, the next code has four bits and begins at
bit 0 of `IN[2]`, which holds `b`. -/
def probeLaunched (b : Byte) (s : State) : State :=
  { s with
    mincs := 2, clearCode := probeRegs.clearCode, eoiCode := probeRegs.eoiCode, pixCnt := 13, inLen := 3
    codeSize := probeRegs.codeSize, codeMask := 15, avail := probeRegs.avail
    bitBuf := 0, bitCnt := 0, inPos := 2, outPos := 8
    prevV := probeRegs.prevV, prev := 8, firstSym := 1, phase := .run, cause := .none
    tbl := Memory.cells 0 (seeds 4) ++ Memory.cells 6 [⟨1, 1⟩, ⟨6, 1⟩, ⟨6, 1⟩]
    stk := []
    inp := Memory.cells 0 [0x8C, 0x8D, b]
    out := Memory.cells 0 (List.replicate 8 1) }

/-- `IN` as a `START` with this length needs it: what the host has supplied, if it is that long, else zeros (log 17). -/
def inputOfLength (len : Nat) (s : State) : List Host.Cell :=
  if s.suppliedBytes = len then s.inp else Memory.cells 0 (List.replicate len 0)

/-- Place an instruction so that the very next step runs it: `START` as the host's next move, with `IN` of the length it
names; a code in `IN` of a launched block (log 17). -/
def placeWord (s : State) (nbits w : Nat) : State :=
  if nbits = startWordBits then
    match decodeStart w with
    | .start m n len => { s with host := .start m n len :: s.host, inp := inputOfLength len s }
    | _ => s
  else { probeLaunched (BitVec.ofNat 8 w) s with host := .wait :: s.host }

end Sys2Proof.Machine
end

