-- ==== Sys2Proof/Machine/Listing.lean ====
section
/-! DEFINITION. Assembling a listing of codes into the bytes of `IN` (R100, R101): the width schedule of R91, kept as
a copy of the decoder's registers, and the packing of the codes' bits. No step uses it: it is the other side of the
format, the side that writes streams (R235). -/

namespace Sys2Proof.Machine

/-- The copy's registers after `START` with this `MIN_CODE_SIZE`, and after a `CLEAR` (R91, R101). For `m` outside 2 to 8
R99 gives the launch no meaning and R101 gives no copy; there this takes the same expressions, cut to the registers'
widths (DESIGN CHOICE, safe, log 26). -/
def scheduleStart (m : Nat) : CodeRegs :=
  { clearCode := BitVec.ofNat 9 (2 ^ m)
    eoiCode := BitVec.ofNat 9 (2 ^ m + 1)
    avail := BitVec.ofNat 13 (2 ^ m + 2)
    prevV := false
    codeSize := BitVec.ofNat 4 (m + 1) }

/-- The copy's registers after a data code: an entry more if there is a previous code and room, and a bit more when
`AVAIL` comes to `2^CODESIZE` below 12 bits (R91, R101). -/
def scheduleData (r : CodeRegs) : CodeRegs :=
  if r.prevV = true ∧ r.avail.toNat < Config.tableCap then
    { r with
      avail := BitVec.ofNat 13 (r.avail.toNat + 1)
      codeSize :=
        if r.avail.toNat + 1 = 2 ^ r.codeSize.toNat ∧ r.codeSize.toNat < Config.maxCodeWidth then
          BitVec.ofNat 4 (r.codeSize.toNat + 1)
        else r.codeSize }
  else { r with prevV := true }

/-- The copy's registers after an instruction: a stop and the host command leave them (R91, R101, R146). -/
def scheduleAfter (m : Nat) (r : CodeRegs) : Instr → CodeRegs
  | .clear => { scheduleStart m with clearCode := r.clearCode, eoiCode := r.eoiCode }
  | .eoi => r
  | .invalid _ => r
  | .lit _ => scheduleData r
  | .entry _ => scheduleData r
  | .kwkwk _ => scheduleData r
  | .start _ _ _ => r

/-- The copy's registers after a code value. A value of no class, which only a header outside 2 to 8 can bring about
(R48), leaves them (DESIGN CHOICE, safe, log 26). -/
def scheduleCode (m : Nat) (r : CodeRegs) (v : Code) : CodeRegs :=
  match classify r v with
  | .ok i => scheduleAfter m r i
  | .error _ => r

/-- The bits of a list of codes, each at the width the copy says, one after another (R101). R101 asks that every code be
below `2^CODESIZE` and gives no bytes for one that is not; there this keeps the low `CODESIZE` bits and updates the copy by
the class of the whole value (DESIGN CHOICE, safe, log 24). -/
def listingBits (m : Nat) : CodeRegs → List Code → List Bool
  | _, [] => []
  | r, v :: vs => bitsOfNat r.codeSize.toNat v.toNat ++ listingBits m (scheduleCode m r v) vs

/-- The bytes of a listing with header `.mincs m` (R100, R101). What these bytes are for a code that does not fit its width
(log 24) and for `m` outside 2 to 8 (R99; log 26) is the model's choice. -/
def assemble (m : Nat) (codes : List Code) : List Byte := packBytes (listingBits m (scheduleStart m) codes)

end Sys2Proof.Machine
end

