-- ==== Sys2Proof/Machine/Flags.lean ====
section
/-! DEFINITION. The status the host reads: the numbers of `PHASE` and `CAUSE` (R21, R22), the two flags (R23), and the
host's reads (R233, R234). There are no other flags or condition codes (R23). -/

namespace Sys2Proof.Machine

/-- The two bits of `PHASE` (R21). -/
def Phase.bits : Phase → BitVec 2
  | .idle => 0
  | .run => 1
  | .done => 2

/-- The three bits of `CAUSE` (R22). -/
def Cause.bits : Cause → BitVec 3
  | .none => 0
  | .complete => 1
  | .eoi => 2
  | .invalid => 3
  | .exhausted => 4

/-- `MALFORMED` (R23): `CAUSE` is `INVALID` or `EXHAUSTED`. -/
def State.malformed (s : State) : Bool := decide (s.cause = .invalid) || decide (s.cause = .exhausted)

/-- `SHORT` (R23): `PHASE` = `DONE` and `OUTPOS` < `PIXCNT`. -/
def State.short (s : State) : Bool := decide (s.phase = .done) && decide (s.outPos.toNat < s.pixCnt.toNat)

/-- What the host reads of the status: `PHASE` and `CAUSE` at any time, the rest once the run is over (R234). -/
structure HostStatus where
  phase : BitVec 2
  cause : BitVec 3
  ended : Option (BitVec 32 × Bool × Bool)
  deriving DecidableEq, Repr

/-- The host's read of the status; in `DONE` also `OUTPOS`, `MALFORMED`, `SHORT` (R234; log 23). -/
def State.hostStatus (s : State) : HostStatus :=
  { phase := s.phase.bits
    cause := s.cause.bits
    ended := match s.phase with
      | .done => some (s.outPos, s.malformed, s.short)
      | .idle => none
      | .run => none }

/-- The host's read of `OUT[i]`: in `DONE` only, within `0 .. PIXCNT-1` (R233, R234; log 23). -/
def State.hostReadOut (s : State) (i : Nat) : Option Sym :=
  match s.phase with
  | .done => if i < s.pixCnt.toNat then Memory.read s.out i else none
  | .idle => none
  | .run => none

end Sys2Proof.Machine
end

