-- ==== Sys2Proof/Safety.lean ====
section
/-! DEFINITION. The terms in which the claims are stated: the string of a code (R160), the invariants (R40 to R48 and
what R30, R33, R63, R64 say of the registers and `OUT`), a supplied input (R231), the effect of a data code in the words
of its rules (R162 to R165), and what two states must share for their runs to be the same (R38, R123). -/

namespace Sys2Proof.Machine

/-- `Str(c)` (R160) over a table: a base code stands for itself; an entry for the string of its `prefix` and then its
`suffix`. -/
inductive Str (clear : Nat) (tbl : Memory Entry) : Code → List Sym → Prop where
  | base {c : Code} : c.toNat < clear → Str clear tbl c [c.setWidth 8]
  | link {c : Code} {e : Entry} {l : List Sym} :
      clear + 2 ≤ c.toNat → Memory.read tbl c.toNat = some e → Str clear tbl e.pfx l → Str clear tbl c (l ++ [e.sfx])

/-- A code that may stand in the table or be the previous code: below `AVAIL`, not `CLEARCODE`, not `EOICODE`
(R44, R45, R46). -/
abbrev State.liveCode (s : State) (c : Nat) : Prop :=
  c < s.avail.toNat ∧ c ≠ s.clearCode.toNat ∧ c ≠ s.eoiCode.toNat

/-- The invariants of the registers and the table in every state with `PHASE` = `RUN` or `DONE` (R40 to R48). -/
structure Launched (s : State) : Prop where
  /-- R24. -/
  mincs_low : 2 ≤ s.mincs.toNat
  /-- R24. -/
  mincs_high : s.mincs.toNat ≤ 8
  /-- R25. -/
  clear_eq : s.clearCode.toNat = 2 ^ s.mincs.toNat
  /-- R25. -/
  eoi_eq : s.eoiCode.toNat = s.clearCode.toNat + 1
  /-- R40. -/
  size_low : s.mincs.toNat + 1 ≤ s.codeSize.toNat
  /-- R40. -/
  size_high : s.codeSize.toNat ≤ 12
  /-- R40. -/
  mask_eq : s.codeMask.toNat = 2 ^ s.codeSize.toNat - 1
  /-- R41. -/
  avail_low : s.clearCode.toNat + 2 ≤ s.avail.toNat
  /-- R41. -/
  avail_high : s.avail.toNat ≤ 4096
  /-- R41. -/
  avail_width : 2 ^ (s.codeSize.toNat - 1) ≤ s.avail.toNat
  /-- R41. -/
  avail_fits : s.avail.toNat < 2 ^ s.codeSize.toNat ∨ (s.codeSize.toNat = 12 ∧ s.avail.toNat = 4096)
  /-- R97: with an empty previous code nothing has been added since `START` or `CLEAR`. -/
  empty_avail : s.prevV = false → s.avail.toNat = s.clearCode.toNat + 2
  /-- R42. -/
  buffer_small : s.bitBuf.toNat < 2 ^ s.bitCnt.toNat
  /-- R43. -/
  input_within : s.inPos ≤ s.inLen
  /-- R43. -/
  output_within : s.outPos.toNat ≤ s.pixCnt.toNat
  /-- R44. -/
  prev_live : s.prevV = true → s.liveCode s.prev.toNat
  /-- R44: `FIRST = Str(PREV)[0]`. -/
  prev_string : s.prevV = true → ∃ l, Str s.clearCode.toNat s.tbl s.prev (s.firstSym :: l)
  /-- R45, the seeded entries. -/
  seeded : ∀ c < s.clearCode.toNat, Memory.read s.tbl c = some { pfx := 0, sfx := BitVec.ofNat 8 c }
  /-- R45, the entries added since the last `START` or `CLEAR`. -/
  entries : ∀ e, s.clearCode.toNat + 2 ≤ e → e < s.avail.toNat →
    ∃ en, Memory.read s.tbl e = some en ∧ en.pfx.toNat < e ∧ en.pfx.toNat ≠ s.clearCode.toNat ∧
      en.pfx.toNat ≠ s.eoiCode.toNat ∧ en.sfx.toNat < s.clearCode.toNat

/-- The bit buffer holds the stream bits from `BITPOS` on, oldest at bit 0 (R30, R31, R69). -/
structure BufferOk (s : State) : Prop where
  loaded : s.bitCnt.toNat ≤ 8 * s.inPos
  bits : ∀ j < s.bitCnt.toNat, s.streamBit (s.bitPos + j) = some (s.bitBuf.getLsbD j)

/-- What holds besides in `RUN`: `INLEN` is the length of `IN` (R231), no cause yet (R22), fewer than eight bits buffered
(R42), they are the stream's (R30), and exactly the positions below `OUTPOS` are written (R63, R64). -/
structure Running (s : State) : Prop where
  input_whole : s.suppliedBytes = s.inLen
  cause_none : s.cause = .none
  count_small : s.bitCnt.toNat ≤ 7
  buffer : BufferOk s
  written : ∀ i, (Memory.read s.out i).isSome = true ↔ i < s.outPos.toNat

/-- What holds besides in `DONE`: a cause (R22), `COMPLETE` exactly with all positions decoded (R190 to R193), `OUT`
complete with zeros from `OUTPOS` on (R64, R195, R225). A stop at the end of the input may leave up to eleven bits
in the buffer (vector F9; log 7). -/
structure Stopped (s : State) : Prop where
  cause_some : s.cause ≠ .none
  cause_complete : s.cause = .complete ↔ s.outPos.toNat = s.pixCnt.toNat
  count_small : s.bitCnt.toNat ≤ 11
  written : ∀ i, (Memory.read s.out i).isSome = true ↔ i < s.pixCnt.toNat
  tail_zero : ∀ i, s.outPos.toNat ≤ i → i < s.pixCnt.toNat → Memory.read s.out i = some 0

/-- The invariant of the machine between two steps. -/
structure Inv (s : State) : Prop where
  /-- The canonical form of `TBL`. -/
  tbl_wf : Memory.wf s.tbl
  /-- The canonical form of `IN`. -/
  inp_wf : Memory.wf s.inp
  /-- R231: `IN` is a sequence, its bytes stand from index 0 on. -/
  inp_seq : ∃ bytes, s.inp = Memory.cells 0 bytes
  /-- The canonical form of `OUT`. -/
  out_wf : Memory.wf s.out
  /-- R60: no index of `TBL` at or above 4096. -/
  tbl_range : ∀ e, 4096 ≤ e → Memory.read s.tbl e = none
  /-- R68: `SP` is 0 at the start and at the end of every step. -/
  stack_empty : s.stk = []
  /-- R21, R22: before the first launch there is no cause. -/
  when_idle : s.phase = .idle → s.cause = .none
  /-- R40 to R48. -/
  when_launched : s.phase ≠ .idle → Launched s
  when_running : s.phase = .run → Running s
  when_stopped : s.phase = .done → Stopped s

/-- Every byte of `IN[0 .. INLEN-1]` holds a value, as in every run (R230, R231). -/
abbrev Supplied (s : State) : Prop := ∀ i < s.inLen, (Memory.read s.inp i).isSome = true

/-- The bits of the stream from `BITPOS` on begin with these. -/
abbrev StreamFrom (s : State) (bits : List Bool) : Prop :=
  ∀ j, (h : j < bits.length) → s.streamBit (s.bitPos + j) = some bits[j]

/-- The effect of a data code with the string `str` and first symbol `f`, in the words of R162 to R165; the last clause
is the frame: no other register, and neither `IN` nor `STK`, is changed. -/
structure DataEffect (s : State) (code : Code) (f : Sym) (str : List Sym) (t : State) : Prop where
  /-- R162: `k = min(|s|, PIXCNT - OUTPOS)` symbols are written. -/
  outPos_eq : t.outPos.toNat = s.outPos.toNat + min str.length (s.pixCnt.toNat - s.outPos.toNat)
  /-- R162: the written positions. -/
  out_new : ∀ i, s.outPos.toNat ≤ i → i < t.outPos.toNat → Memory.read t.out i = str[i - s.outPos.toNat]?
  /-- R162: every other position. -/
  out_old : ∀ i, i < s.outPos.toNat ∨ t.outPos.toNat ≤ i → Memory.read t.out i = Memory.read s.out i
  /-- R163: with a previous code and room, `AVAIL` rises by one, else it stays. -/
  avail_eq : t.avail.toNat = if s.prevV = true ∧ s.avail.toNat < 4096 then s.avail.toNat + 1 else s.avail.toNat
  /-- R163: with a previous code and room, entry `AVAIL` is written. -/
  tbl_new : s.prevV = true → s.avail.toNat < 4096 →
    Memory.read t.tbl s.avail.toNat = some { pfx := s.prev, sfx := f }
  /-- R163: every other entry, and without a previous code or room every entry. -/
  tbl_old : ∀ e, ¬ (s.prevV = true ∧ s.avail.toNat < 4096 ∧ e = s.avail.toNat) →
    Memory.read t.tbl e = Memory.read s.tbl e
  /-- R164: growth, only in a step that added an entry. -/
  grown : s.prevV = true → s.avail.toNat < 4096 → (s.avail.toNat + 1) &&& s.codeMask.toNat = 0 → s.codeSize.toNat < 12 →
    t.codeSize.toNat = s.codeSize.toNat + 1 ∧ t.codeMask = s.codeMask <<< 1 ||| 1#12
  /-- R164: otherwise no growth. -/
  not_grown : ¬ (s.prevV = true ∧ s.avail.toNat < 4096 ∧ (s.avail.toNat + 1) &&& s.codeMask.toNat = 0 ∧
    s.codeSize.toNat < 12) → t.codeSize = s.codeSize ∧ t.codeMask = s.codeMask
  /-- R165. -/
  prev_eq : t.prevV = true ∧ t.prev = code ∧ t.firstSym = f
  /-- The frame. -/
  frame : t = { s with
    out := t.out, outPos := t.outPos, tbl := t.tbl, avail := t.avail, codeSize := t.codeSize, codeMask := t.codeMask
    prevV := t.prevV, prev := t.prev, firstSym := t.firstSym }

/-- The effect of `stop(c)` in the words of R195; the last clause is the frame. -/
structure StopEffect (s : State) (c : Cause) (t : State) : Prop where
  phase_eq : t.phase = .done
  cause_eq : t.cause = c
  fill : ∀ i, s.outPos.toNat ≤ i → i < s.pixCnt.toNat → Memory.read t.out i = some 0
  out_old : ∀ i, i < s.outPos.toNat ∨ s.pixCnt.toNat ≤ i → Memory.read t.out i = Memory.read s.out i
  frame : t = { s with phase := t.phase, cause := t.cause, out := t.out }

/-- The tests of the step in the order of R124's text, on legal registers: the class each branch does. -/
def orderedTests (r : CodeRegs) (c : Code) : Instr :=
  if c.toNat = r.clearCode.toNat then .clear
  else if c.toNat = r.eoiCode.toNat then .eoi
  else if c.toNat > r.avail.toNat then .invalid c
  else if c.toNat = r.avail.toNat ∧ r.prevV = false then .invalid c
  else if r.prevV = false then .lit c
  else if c.toNat = r.avail.toNat then .kwkwk c
  else if c.toNat < r.clearCode.toNat then .lit c
  else .entry c

/-- Two states that a run cannot tell apart: equal but for the hidden state of R38, which is the table entries that are
neither seeded nor below `AVAIL`, and `PREV` and `FIRST` while `PREVV` = 0. -/
structure SameRun (s t : State) : Prop where
  tbl_live : ∀ e, (e < s.clearCode.toNat ∨ (s.clearCode.toNat + 2 ≤ e ∧ e < s.avail.toNat)) →
    Memory.read t.tbl e = Memory.read s.tbl e
  prev_eq : s.prevV = true → t.prev = s.prev ∧ t.firstSym = s.firstSym
  rest : t = { s with tbl := t.tbl, prev := t.prev, firstSym := t.firstSym }

end Sys2Proof.Machine
end

