-- ==== Sys2Proof/Certificates/Slice0/Obligations.lean ====
section
/-! DEFINITION. The statements for the provers, each from the rules of spec/ its docstring cites. Frames are said in two
ways at once: an equation `t = { s with x := t.x, … }` says that nothing but the named fields differs between the state before and
after, and every change of a memory is said by the model's read of one index. -/

open Sys2Proof Sys2Proof.Machine

/-! ### Codes: classes, decoding, encoding -/

/-- R95, R48: on registers that a launched block can hold, the conditions of the six rows decide the class, whatever
the code: each row's condition holds exactly when the decoder answers that class, and every code gets one. -/
def Obligations.ClassOfEveryCode : Prop :=
  (∀ s : State, Launched s → s.codeRegs.Legal) ∧
  ∀ (r : CodeRegs) (c : Code), r.Legal →
    (classify r c = .ok .clear ↔ c.toNat = r.clearCode.toNat) ∧
    (classify r c = .ok .eoi ↔ c.toNat = r.eoiCode.toNat) ∧
    (classify r c = .ok (.invalid c) ↔ (c.toNat > r.avail.toNat ∨ (c.toNat = r.avail.toNat ∧ r.prevV = false))) ∧
    (classify r c = .ok (.lit c) ↔ c.toNat < r.clearCode.toNat) ∧
    (classify r c = .ok (.entry c) ↔ (r.clearCode.toNat + 2 ≤ c.toNat ∧ c.toNat < r.avail.toNat)) ∧
    (classify r c = .ok (.kwkwk c) ↔ (c.toNat = r.avail.toNat ∧ r.prevV = true)) ∧
    ∃ i, classify r c = .ok i ∧ codeOf r i = some c.toNat

/-- R124 against R95: the tests in the order of the step's pseudocode choose the class that the conditions of the
table choose. -/
def Obligations.OrderOfTestsAgrees : Prop :=
  ∀ (r : CodeRegs) (c : Code), r.Legal → classify r c = .ok (orderedTests r c)

/-- R97: which classes a launched state can meet, for a code of `CODESIZE` bits. -/
def Obligations.ClassesAStateCanMeet : Prop :=
  ∀ (s : State) (c : Code), Launched s → c.toNat < 2 ^ s.codeSize.toNat →
    (s.prevV = false → s.avail.toNat = s.clearCode.toNat + 2 ∧ classify s.codeRegs c ≠ .ok (.entry c) ∧
      classify s.codeRegs c ≠ .ok (.kwkwk c) ∧
      (classify s.codeRegs c = .ok (.invalid c) ↔ s.clearCode.toNat + 2 ≤ c.toNat)) ∧
    (classify s.codeRegs c = .ok (.kwkwk c) → s.avail.toNat ≤ s.codeMask.toNat) ∧
    (s.avail.toNat ≤ s.codeMask.toNat ↔ s.avail.toNat ≠ 4096) ∧
    (s.prevV = true → classify s.codeRegs c = .ok (.invalid c) → s.avail.toNat < s.codeMask.toNat) ∧
    (s.prevV = true → s.avail.toNat = 2 ^ s.codeSize.toNat - 1 ∨ s.avail.toNat = 4096 →
      classify s.codeRegs c ≠ .ok (.invalid c))

/-- R90 to R92, R95: the bits of a well-formed code, followed by any others, decode to it, and the others are left. -/
def Obligations.DecodeOfEncode : Prop :=
  ∀ (r : CodeRegs) (i : Instr) (rest : List Bool), r.Legal → i.wf r = true → codeOf r i ≠ none →
    decode r (encode r i ++ rest) = .ok (i, rest)

/-- R90, R92: what the decoder reads it has read whole: the instruction's own bits and the rest are the string. -/
def Obligations.EncodeOfDecode : Prop :=
  ∀ (r : CodeRegs) (bits rest : List Bool) (i : Instr), r.codeSize.toNat ≤ 12 →
    decode r bits = .ok (i, rest) → encode r i ++ rest = bits ∧ (encode r i).length = r.codeSize.toNat

/-- R101, R69: the bytes made from a bit string are `ceil(p / 8)` in number, and their own bit string is the bits that
were put in and then zeros. -/
def Obligations.PackingKeepsTheBits : Prop :=
  ∀ bits : List Bool, (packBytes bits).length = (bits.length + 7) / 8 ∧
    bitsOfBytes (packBytes bits) = bits ++ List.replicate (8 * ((bits.length + 7) / 8) - bits.length) false

/-- A few words written out from the spec: the four codes of R71's layout, bit by bit, at `MINCS` = 2, and the
class of codes of vectors V2 and V8. -/
def Obligations.WordsOfTheSpecDecode : Prop :=
  decode (scheduleStart 2) [false, false, true, false, false, false] = .ok (.clear, [false, false, false]) ∧
  decode (scheduleStart 2) [false, false, false, true] = .ok (.lit 0, [true]) ∧
  decode (scheduleStart 2) [true, false, false] = .ok (.lit 1, []) ∧
  decode (scheduleStart 2) [true, false, true] = .ok (.eoi, []) ∧
  decode (scheduleStart 2) [false, true, true] = .ok (.invalid 6, []) ∧
  decode { scheduleStart 2 with avail := 9, prevV := true, codeSize := 4 } [false, true, true, false] = .ok (.entry 6, []) ∧
  decode { scheduleStart 2 with avail := 9, prevV := true, codeSize := 4 } [true, false, false, true] = .ok (.kwkwk 9, []) ∧
  decode (scheduleStart 8) [false, false, false, false, false, false, false, false, true] = .ok (.clear, []) ∧
  decode (scheduleStart 8) [true, true, true, true, true, true, true, true, false] = .ok (.lit 255, [])

/-! ### The fetch -/

/-- R69, R92, R126: with the code mask of the width, the buffer true to the stream and enough supplied input left, the
fetch answers the number whose bit `j` is stream bit `BITPOS + j`, moves `BITPOS` past it by exactly the width,
keeps the buffer true to the stream, and changes nothing else. -/
def Obligations.FetchReadsTheStream : Prop :=
  ∀ s : State, BufferOk s → s.bitBuf.toNat < 2 ^ s.bitCnt.toNat → s.bitCnt.toNat ≤ 7 → s.codeSize.toNat ≤ 12 →
    s.codeMask.toNat = 2 ^ s.codeSize.toNat - 1 → s.inPos ≤ s.inLen → Supplied s →
    s.bitPos + s.codeSize.toNat ≤ 8 * s.inLen →
    ∃ c s', fetch s = .code c s' ∧ c.toNat < 2 ^ s.codeSize.toNat ∧
      (∀ j < s.codeSize.toNat, s.streamBit (s.bitPos + j) = some (c.getLsbD j)) ∧
      s'.bitPos = s.bitPos + s.codeSize.toNat ∧ s'.bitCnt.toNat ≤ 7 ∧ s'.inPos ≤ s'.inLen ∧ BufferOk s' ∧
      s'.bitBuf.toNat < 2 ^ s'.bitCnt.toNat ∧
      s' = { s with bitBuf := s'.bitBuf, bitCnt := s'.bitCnt, inPos := s'.inPos }

/-- The single fetches F1, F3, F5, F6, F7, F8 and F9 of 95_test_vectors.md section 2.2, with k = 0. -/
def Obligations.FetchVectors : Prop :=
  let s (size : BitVec 4) (mask : BitVec 12) (buf : BitVec 19) (cnt : BitVec 5) (pos : Nat) (inp : List Byte) : State :=
    { State.reset with
      codeSize := size, codeMask := mask, bitBuf := buf, bitCnt := cnt, inPos := pos
      inLen := inp.length, inp := Memory.cells 0 inp }
  fetch (s 3 7 0 0 0 [0x8C]) = .code 4 (s 3 7 17 5 1 [0x8C]) ∧
  fetch (s 3 7 2 2 1 [0x8C, 0x2D]) = .code 6 (s 3 7 22 7 2 [0x8C, 0x2D]) ∧
  fetch (s 12 4095 5 3 0 [0xFF, 0xFF]) = .code 4093 (s 12 4095 127 7 2 [0xFF, 0xFF]) ∧
  fetch (s 12 4095 0 0 0 [0x34, 0x12]) = .code 0x234 (s 12 4095 1 4 2 [0x34, 0x12]) ∧
  fetch (s 9 511 0 0 0 [0x00, 0xFF]) = .code 256 (s 9 511 127 7 2 [0x00, 0xFF]) ∧
  fetch (s 3 7 0 2 1 [0x04]) = .ended (s 3 7 0 2 1 [0x04]) ∧
  fetch (s 12 4095 5 3 0 [0xFF]) = .ended (s 12 4095 2045 11 1 [0xFF])

/-! ### The step -/

/-- R124: where the host does nothing, the output is not full and the fetch yields a code, the step is the operation of
the code's class on the state the fetch left. -/
def Obligations.StepRunsTheFetchedCode : Prop :=
  ∀ (s s' : State) (c : Code) (i : Instr), s.host = [] → s.phase = .run → s.outPos ≠ s.pixCnt →
    fetch s = .code c s' → classify s'.codeRegs c = .ok i → step s = exec i s'

/-- R49, R69, R90, R124: in a state of a run, when the stream from `BITPOS` on begins with bits that decode to an
instruction, the step runs exactly that instruction, on the state whose only difference is that the stream position has
moved past the code by its width; and the instruction is well formed. -/
def Obligations.StreamInstructionIsRun : Prop :=
  ∀ (s : State) (bits rest : List Bool) (i : Instr), Inv s → s.phase = .run → s.host = [] → s.outPos ≠ s.pixCnt →
    bits.length ≤ 8 * s.inLen - s.bitPos → StreamFrom s bits → decode s.codeRegs bits = .ok (i, rest) →
    i.wf s.codeRegs = true ∧
    ∃ s', step s = exec i s' ∧ s'.bitPos = s.bitPos + s.codeSize.toNat ∧ StreamFrom s' rest ∧
      s' = { s with bitBuf := s'.bitBuf, bitCnt := s'.bitCnt, inPos := s'.inPos }

/-- R124, R210, R10: in `IDLE` and `DONE` the block does nothing on its own; a host that waits lets the block
step, and the host's `START` is a transition of its own, `exec` of `START` (the reset: ResetAbandonsTheRun; the write of
`IN`: HostWritesInput). That a step takes the host's moves from a list in the state, a waiting one among them, is the model's
choice (log 4); that a step in `IDLE` or `DONE` with no move is a step of no effect is the model's reading (log 22). -/
def Obligations.TurnsOfHostAndBlock : Prop :=
  (∀ s : State, s.host = [] → s.phase ≠ .run → step s = .next s) ∧
  (∀ (s u : State) (rest : List HostMove), s.host = .wait :: rest → step { s with host := [] } = .next u →
    step s = .next { u with host := rest }) ∧
  (∀ (s : State) (m : Byte) (n : BitVec 32) (len : Nat) (rest : List HostMove), s.host = .start m n len :: rest →
    step s = exec (.start m n len) { s with host := rest })

/-- R125, R190, R197: with the output full the step stops with `COMPLETE` and reads nothing: no position of `OUT` and
no register but `PHASE` and `CAUSE` changes, whatever stands next in the stream. -/
def Obligations.OutputFullStops : Prop :=
  ∀ s : State, s.host = [] → s.phase = .run → s.outPos = s.pixCnt →
    ∃ t, step s = .next t ∧ t.phase = .done ∧ t.cause = .complete ∧ t.malformed = false ∧ t.short = false ∧
      (∀ i, Memory.read t.out i = Memory.read s.out i) ∧
      t = { s with phase := t.phase, cause := t.cause, out := t.out }

/-- R127, R193, R197: when the input cannot supply a whole code the run stops with `EXHAUSTED`, even if the bits left
look like the beginning of another code; `INPOS` = `INLEN`, `BITPOS` is the same, and the tail of `OUT` is filled. -/
def Obligations.InputEndStops : Prop :=
  ∀ s : State, s.host = [] → s.phase = .run → s.outPos ≠ s.pixCnt → s.inPos ≤ s.inLen → Supplied s →
    s.bitCnt.toNat + 8 * (s.inLen - s.inPos) < s.codeSize.toNat →
    ∃ t, step s = .next t ∧ t.inPos = s.inLen ∧ t.bitPos = s.bitPos ∧ t.malformed = true ∧
      (s.outPos.toNat < s.pixCnt.toNat → t.short = true) ∧
      StopEffect { s with bitBuf := t.bitBuf, bitCnt := t.bitCnt, inPos := t.inPos } .exhausted t

/-- R195: from every state, `stop(c)` fills the positions from `OUTPOS` on with 0, records the cause, enters `DONE`, and
changes nothing else; `OUTPOS` keeps the count of decoded indices. -/
def Obligations.StopFillsTheTail : Prop :=
  ∀ (s : State) (c : Cause), StopEffect s c (stop c s)

/-! ### Control codes -/

/-- R140: `CLEAR` always completes; it writes `CODESIZE`, `CODEMASK`, `AVAIL`, `PREVV` and nothing else. -/
def Obligations.ClearResetsTheDictionary : Prop :=
  ∀ s : State, s.mincs.toNat ≤ 8 →
    ∃ t, exec .clear s = .next t ∧ t.codeSize.toNat = s.mincs.toNat + 1 ∧ t.codeMask.toNat = 2 ^ (s.mincs.toNat + 1) - 1 ∧
      t.avail.toNat = s.clearCode.toNat + 2 ∧ t.prevV = false ∧
      t = { s with codeSize := t.codeSize, codeMask := t.codeMask, avail := t.avail, prevV := t.prevV }

/-- R140's corner case: in a run with an empty previous code (as after `START` or another `CLEAR`) a `CLEAR` changes
no register, so the step has changed the stream position only. -/
def Obligations.RedundantClearChangesNothing : Prop :=
  ∀ s : State, Inv s → s.phase = .run → s.prevV = false → exec .clear s = .next s

/-- R142, R191: `EOI` always completes, and stops the run: cause `EOI`, the tail filled with 0, nothing else changed;
`MALFORMED` = 0, and `SHORT` = 1 when the output was not full. -/
def Obligations.EoiStopsTheRun : Prop :=
  ∀ s : State, ∃ t, exec .eoi s = .next t ∧ StopEffect s .eoi t ∧ t.malformed = false ∧
    (s.outPos.toNat < s.pixCnt.toNat → t.short = true)

/-- R144, R146, R192: an `INVALID` code always completes, and stops the run: cause `INVALID`, the tail filled with 0,
nothing else changed; `MALFORMED` = 1, and `SHORT` = 1 when the output was not full. -/
def Obligations.InvalidStopsTheRun : Prop :=
  ∀ (s : State) (c : Code), ∃ t, exec (.invalid c) s = .next t ∧ StopEffect s .invalid t ∧ t.malformed = true ∧
    (s.outPos.toNat < s.pixCnt.toNat → t.short = true)

/-! ### Data codes -/

/-- R166: with the stack empty, as it is between steps, `LIT` completes: it emits the one symbol `code` and has the
effect of a data code; with `PREVV` = 0 no entry is added. For a code above 255, which is no `LIT` of a run (R170), that the
symbol is its low eight bits is the model's reading (log 21). -/
def Obligations.LitEmitsItsSymbol : Prop :=
  ∀ (s : State) (code : Code), s.stk = [] →
    ∃ t, exec (.lit code) s = .next t ∧ DataEffect s code (code.setWidth 8) [code.setWidth 8] t

/-- R167, R160, R161: with the stack empty and the string of the code defined by the table and no longer than the
stack is deep, `ENTRY` completes: it emits that string, its first symbol is the suffix of the new entry. -/
def Obligations.EntryEmitsItsString : Prop :=
  ∀ (s : State) (code : Code) (f : Sym) (l : List Sym), s.stk = [] → Str s.clearCode.toNat s.tbl code (f :: l) →
    (f :: l).length ≤ 4096 →
    ∃ t, exec (.entry code) s = .next t ∧ DataEffect s code f (f :: l) t

/-- R168: with the stack empty and the string of the previous code defined and shorter than the stack is deep,
`KWKWK` completes: it emits that string and then `FIRST`. Where `FIRST` is not the first symbol of that string, which R34
rules out in a run, that the new entry's suffix and the new `FIRST` are the first symbol emitted is the model's reading
(log 13). -/
def Obligations.KwkwkRepeatsThePrevious : Prop :=
  ∀ (s : State) (code : Code) (f : Sym) (l : List Sym), s.stk = [] → Str s.clearCode.toNat s.tbl s.prev (f :: l) →
    (f :: l).length < 4096 →
    ∃ t, exec (.kwkwk code) s = .next t ∧ DataEffect s code f (f :: l ++ [s.firstSym]) t

/-- R168, R34: in a run, `KWKWK` on `code = AVAIL` completes, and after it the string of the code is what was emitted:
the string of the previous code and its first symbol again. -/
def Obligations.KwkwkNamesWhatItEmits : Prop :=
  ∀ (s : State) (code : Code), Inv s → s.phase = .run → s.prevV = true → code.toNat = s.avail.toNat →
    ∃ t l, exec (.kwkwk code) s = .next t ∧ Str s.clearCode.toNat s.tbl s.prev (s.firstSym :: l) ∧
      DataEffect s code s.firstSym (s.firstSym :: l ++ [s.firstSym]) t ∧
      Str t.clearCode.toNat t.tbl code (s.firstSym :: l ++ [s.firstSym])

/-- R46, R47, R160: in every launched state the string of a live code is defined and unique, its symbols are base
codes, and it is short enough for the stack. -/
def Obligations.StringsAreDefinedAndShort : Prop :=
  ∀ (s : State) (c : Code), Launched s → s.liveCode c.toNat →
    ∃ l, Str s.clearCode.toNat s.tbl c l ∧ (∀ l', Str s.clearCode.toNat s.tbl c l' → l' = l) ∧ 1 ≤ l.length ∧
      (∀ v ∈ l, v.toNat < s.clearCode.toNat) ∧
      (c.toNat < s.clearCode.toNat → l.length = 1) ∧
      (s.clearCode.toNat ≤ c.toNat → l.length + s.clearCode.toNat ≤ c.toNat) ∧ l.length ≤ 4091

/-- R41, R164: in every launched state with room in the table, the growth test after an add, `AVAIL & CODEMASK` = 0, is
the test `AVAIL` = `2^CODESIZE`. -/
def Obligations.GrowthTestMeansPowerOfTwo : Prop :=
  ∀ s : State, Launched s → s.avail.toNat < 4096 →
    ((s.avail.toNat + 1) &&& s.codeMask.toNat = 0 ↔ s.avail.toNat + 1 = 2 ^ s.codeSize.toNat)

/-! ### Launch, reset, the host's moves -/

/-- R120, R122, R39, R231: an accepted `START`, whose `IN_LEN` is the number of bytes supplied, completes with the launch
values, the seeded entries, every other entry as it was, `OUT` without a value (the model's reading: log 8), and no other
change. -/
def Obligations.StartLaunches : Prop :=
  ∀ (s : State) (m : Byte) (n : BitVec 32) (len : Nat), s.phase ≠ .run → 2 ≤ m.toNat → m.toNat ≤ 8 →
    s.suppliedBytes = len →
    ∃ t, exec (.start m n len) s = .next t ∧ t.phase = .run ∧ t.cause = .none ∧ t.malformed = false ∧ t.short = false ∧
      t.mincs.toNat = m.toNat ∧ t.clearCode.toNat = 2 ^ m.toNat ∧ t.eoiCode.toNat = 2 ^ m.toNat + 1 ∧
      t.avail.toNat = 2 ^ m.toNat + 2 ∧ t.codeSize.toNat = m.toNat + 1 ∧ t.codeMask.toNat = 2 ^ (m.toNat + 1) - 1 ∧
      t.pixCnt = n ∧ t.inLen = len ∧ t.prevV = false ∧ t.bitBuf = 0 ∧ t.bitCnt = 0 ∧ t.inPos = 0 ∧ t.outPos = 0 ∧
      (∀ c < 2 ^ m.toNat, Memory.read t.tbl c = some { pfx := 0, sfx := BitVec.ofNat 8 c }) ∧
      (∀ c, 2 ^ m.toNat ≤ c → Memory.read t.tbl c = Memory.read s.tbl c) ∧
      (∀ i, Memory.read t.out i = none) ∧
      t.prev = s.prev ∧ t.firstSym = s.firstSym ∧ t.stk = s.stk ∧ t.inp = s.inp ∧ t.host = s.host

/-- R121, R99: outside a run a `START` whose `MIN_CODE_SIZE` is outside 2 to 8 gets no step: it is refused by name. -/
def Obligations.ReservedStartIsRefused : Prop :=
  ∀ (s : State) (m : Byte) (n : BitVec 32) (len : Nat), s.phase ≠ .run → (m.toNat < 2 ∨ 8 < m.toNat) →
    exec (.start m n len) s = .refused (.reservedMinCodeSize m)

/-- R231, U9: outside a run a `START` with a legal `MIN_CODE_SIZE` whose `IN_LEN` is not the number of bytes supplied, be it
above or below, gets no step: it is refused by name (that the refusal falls on the `START` is the model's inference: log 10). -/
def Obligations.WrongInputLengthIsRefused : Prop :=
  ∀ (s : State) (m : Byte) (n : BitVec 32) (len : Nat), s.phase ≠ .run → 2 ≤ m.toNat → m.toNat ≤ 8 →
    s.suppliedBytes ≠ len → exec (.start m n len) s = .refused (.inputLengthMismatch len s.suppliedBytes)

/-- R123: a `START` during a run completes and has no effect, whatever its arguments (that an argument outside 2 to 8 is
ignored too is the model's reading: log 6). -/
def Obligations.StartInRunIsIgnored : Prop :=
  ∀ (s : State) (m : Byte) (n : BitVec 32) (len : Nat), s.phase = .run → exec (.start m n len) s = .next s

/-- R39, R220: the state after the power-on reset: `IDLE`, `NONE`, an empty stack, no value in any memory, no flag. That
registers for which R39 gives no value hold zero is the model's choice (log 1) and is not stated. -/
def Obligations.ResetState : Prop :=
  State.reset.phase = .idle ∧ State.reset.cause = .none ∧ State.reset.sp = 0 ∧ State.reset.malformed = false ∧
    State.reset.short = false ∧ (∀ i, Memory.read State.reset.inp i = none) ∧
    (∀ i, Memory.read State.reset.out i = none) ∧ (∀ e, Memory.read State.reset.tbl e = none)

/-- R220, R221: a reset applied at any time, in a run too, abandons the run: `IDLE`, no cause, and no position of `OUT`
holds a value. That the host's coming moves are kept is the model's choice (log 16). -/
def Obligations.ResetAbandonsTheRun : Prop :=
  ∀ (s : State) (rest : List HostMove), s.host = .reset :: rest →
    ∃ t, step s = .next t ∧ t.phase = .idle ∧ t.cause = .none ∧ t.sp = 0 ∧ (∀ i, Memory.read t.out i = none) ∧
      t.host = rest

/-- R231, R232, R234, U3: the host's write of `IN` in `IDLE` or `DONE` makes `IN` the sequence of these bytes and changes
nothing else; that one write replaces the whole of `IN`, so that no byte of an earlier frame is left at any index, is the
model's choice (log 25). In `RUN` it is no move of the model, and is refused by name (log 11). -/
def Obligations.HostWritesInput : Prop :=
  ∀ (s : State) (bytes : List Byte) (rest : List HostMove), s.host = .writeIn bytes :: rest →
    (s.phase = .run → step s = .refused .inputWrittenInRun) ∧
    (s.phase ≠ .run → ∃ t, step s = .next t ∧
      (∀ i, i < bytes.length → Memory.read t.inp i = bytes[i]?) ∧
      (∀ i, bytes.length ≤ i → Memory.read t.inp i = none) ∧ t.suppliedBytes = bytes.length ∧
      t = { s with inp := t.inp, host := rest })

/-! ### The machine as a whole -/

/-- The state after the power-on reset meets the invariant. -/
def Obligations.ResetMeetsTheInvariant : Prop := Inv State.reset

/-- R40 to R48 and what R21, R22, R30, R63, R64, R68 and R231 say between steps: every step keeps them. The bound 11 on
`BITCNT` in `DONE` is the model's reading (log 7), and that `IN` is a sequence outside a run too rests on the model's whole
write of `IN` (log 25). -/
def Obligations.StepKeepsTheInvariant : Prop := ∀ s t : State, Inv s → step s = .next t → Inv t

/-- R231, R61: in a run `IN` is a sequence whose length is `INLEN`: exactly the indices below `INLEN` hold a byte, whatever
earlier runs had in `IN`. -/
def Obligations.RunHasItsWholeInput : Prop :=
  ∀ s : State, Inv s → s.phase = .run → s.suppliedBytes = s.inLen ∧
    ∀ i, ((Memory.read s.inp i).isSome = true ↔ i < s.inLen)

/-- R66, R194, R196, R231: in a run the block's own step always completes: no absent entry is read, the
stack does not overflow, no code is without a class, no byte of the input is missing. -/
def Obligations.RunNeverFaults : Prop :=
  ∀ s : State, Inv s → s.phase = .run → s.host = [] → ∃ t, step s = .next t

/-- R225: whatever the input, a run left to itself is over after at most `floor(8*INLEN / 3) + 1` steps. -/
def Obligations.EveryRunEnds : Prop :=
  ∀ s : State, Inv s → s.phase = .run → s.host = [] →
    ∃ (k : Nat) (t : State), k ≤ 8 * s.inLen / 3 + 1 ∧ Sys2Proof.core.run k s = .next t ∧ t.phase = .done

/-- R64, R194, R225, R23, R234: the step that ends a run leaves every position of `OUT` with a value that the host can
read, zeros from `OUTPOS` on, `SHORT` = 1 exactly when the cause is not `COMPLETE`, and `OUTPOS` as it was. -/
def Obligations.EndOfRunIsComplete : Prop :=
  ∀ s t : State, Inv s → s.phase = .run → s.host = [] → step s = .next t → t.phase = .done →
    (∀ i < t.pixCnt.toNat, t.hostReadOut i = Memory.read t.out i ∧ (t.hostReadOut i).isSome = true) ∧
    (∀ i, t.outPos.toNat ≤ i → i < t.pixCnt.toNat → t.hostReadOut i = some 0) ∧
    t.cause ≠ .none ∧ (t.short = true ↔ t.cause ≠ .complete) ∧ t.outPos = s.outPos

/-- R49, R124: between steps of a run the program counter `BITPOS` moves by the width in force before the step, or the
step is a stop that reads no code, `COMPLETE` or `EXHAUSTED`, and `BITPOS` is the same; it never passes `8*INLEN`. -/
def Obligations.ProgramCounterMovesByTheWidth : Prop :=
  ∀ s t : State, Inv s → s.phase = .run → s.host = [] → step s = .next t →
    (t.bitPos = s.bitPos + s.codeSize.toNat ∨
      (t.bitPos = s.bitPos ∧ t.phase = .done ∧ (t.cause = .complete ∨ t.cause = .exhausted))) ∧
    t.bitPos ≤ 8 * t.inLen

/-- R21, R22, R198, R221: from every state, only a stop, which records a cause, or the reset leaves `RUN`, and outside `RUN`
only the reset and an accepted `START` change `PHASE` or `CAUSE`. -/
def Obligations.OnlyStartStopAndResetChangeThePhase : Prop :=
  ∀ s t : State, step s = .next t →
    (s.phase = .run → t.phase = .run ∨ (t.phase = .done ∧ t.cause ≠ .none) ∨
      (t.phase = .idle ∧ ∃ rest, s.host = .reset :: rest)) ∧
    (s.phase ≠ .run → (t.phase = s.phase ∧ t.cause = s.cause) ∨
      (t.phase = .idle ∧ t.cause = .none ∧ ∃ rest, s.host = .reset :: rest) ∨
      (t.phase = .run ∧ t.cause = .none ∧
        ∃ m n len rest, s.host = .start m n len :: rest ∧ 2 ≤ m.toNat ∧ m.toNat ≤ 8))

/-- R23: `MALFORMED` is 1 exactly with cause `INVALID` or `EXHAUSTED`; `SHORT` is 1 exactly in `DONE` with `OUTPOS` below
`PIXCNT`, that is, for the stops `EOI`, `INVALID` and `EXHAUSTED`; and the number 2 that the host reads for `PHASE` says that
there was a stop, numbers above 2 and 4 are never read (R21, R22). -/
def Obligations.StatusFollowsTheCause : Prop :=
  ∀ s : State, Inv s →
    (s.malformed = true ↔ s.cause = .invalid ∨ s.cause = .exhausted) ∧
    (s.short = true ↔ s.phase = .done ∧ s.outPos.toNat < s.pixCnt.toNat) ∧
    (s.short = true ↔ s.cause = .eoi ∨ s.cause = .invalid ∨ s.cause = .exhausted) ∧
    (s.hostStatus.phase = 2 ↔ s.short = true ∨ s.cause = .complete) ∧
    (s.hostStatus.phase = 0 ∨ s.hostStatus.phase = 1 ↔ s.cause = .none) ∧
    s.hostStatus.phase.toNat ≤ 2 ∧ s.hostStatus.cause.toNat ≤ 4

/-- R32, R63: in a run a written position is never rewritten, `OUTPOS` never falls and never passes `PIXCNT`. -/
def Obligations.OutputIsWrittenOnceInOrder : Prop :=
  ∀ s t : State, Inv s → s.phase = .run → s.host = [] → step s = .next t →
    (∀ i < s.outPos.toNat, Memory.read t.out i = Memory.read s.out i) ∧
    s.outPos.toNat ≤ t.outPos.toNat ∧ t.outPos.toNat ≤ t.pixCnt.toNat

/-- R20, R62: from every state, the block's own step leaves the launch registers and `IN` as they are. -/
def Obligations.LaunchValuesAndInputAreConstant : Prop :=
  ∀ s t : State, s.host = [] → step s = .next t →
    t.mincs = s.mincs ∧ t.clearCode = s.clearCode ∧ t.eoiCode = s.eoiCode ∧ t.pixCnt = s.pixCnt ∧ t.inLen = s.inLen ∧
      (∀ i, Memory.read t.inp i = Memory.read s.inp i) ∧ t.host = []

/-- R122, R163: from every state, the block's own step writes no entry of `TBL` but entry `AVAIL`. -/
def Obligations.OnlyEntryAvailIsWritten : Prop :=
  ∀ (s t : State) (e : Nat), s.host = [] → step s = .next t → e ≠ s.avail.toNat →
    Memory.read t.tbl e = Memory.read s.tbl e

/-- R38, U5 to U7: hidden state never shows: two states equal but for it step to states equal but for it. -/
def Obligations.HiddenStateNeverShows : Prop :=
  ∀ s t s' : State, Inv s → Inv t → SameRun s t → step s = .next s' → ∃ t', step t = .next t' ∧ SameRun s' t'

/-- R123: a run's result is a function of its arguments and `IN` alone: launched from any two states that meet the
invariant outside a run and hold the same `IN`, the same number of steps leaves the same `OUT`, `OUTPOS`, `CAUSE`
and `PHASE`. -/
def Obligations.RunIsAFunctionOfItsLaunch : Prop :=
  ∀ (s t s' t' : State) (m : Byte) (n : BitVec 32) (len k : Nat), Inv s → Inv t → s.phase ≠ .run → t.phase ≠ .run →
    s.inp = t.inp → s.host = [] → t.host = [] → 2 ≤ m.toNat → m.toNat ≤ 8 →
    Sys2Proof.core.run k { s with host := [.start m n len] } = .next s' →
    Sys2Proof.core.run k { t with host := [.start m n len] } = .next t' →
    0 < k → s'.out = t'.out ∧ s'.outPos = t'.outPos ∧ s'.cause = t'.cause ∧ s'.phase = t'.phase

/-- R91, R101, R164: the width schedule an encoder keeps is the decoder's own: after any code, the copy of the
registers is what the block holds. -/
def Obligations.WidthScheduleIsTheDecoders : Prop :=
  ∀ (s t : State) (i : Instr), Launched s → i.wf s.codeRegs = true → codeOf s.codeRegs i ≠ none →
    exec i s = .next t → t.codeRegs = scheduleAfter s.mincs.toNat s.codeRegs i

/-- R101, R69, R120: with the bytes of an assembled listing in `IN`, a launch with their number as `IN_LEN` has all its input
supplied, and its stream begins with the bits of the listing at the widths the launched block holds. For a listing with a
code that does not fit its width, which R101 excludes, what these bits are is the model's choice (log 24). -/
def Obligations.AssembledListingStandsInTheStream : Prop :=
  ∀ (s : State) (m : Byte) (n : BitVec 32) (codes : List Code), s.phase ≠ .run → 2 ≤ m.toNat → m.toNat ≤ 8 →
    s.inp = Memory.cells 0 (assemble m.toNat codes) →
    ∃ t, exec (.start m n (assemble m.toNat codes).length) s = .next t ∧ Supplied t ∧ t.bitPos = 0 ∧
      StreamFrom t (listingBits t.mincs.toNat t.codeRegs codes) ∧
      (listingBits t.mincs.toNat t.codeRegs codes).length ≤ 8 * t.inLen

/-- R101: a run whose stream goes on with the bits of a listing reads its first code and, if the run goes on, its stream
goes on with the bits of the rest of the listing. If a code of that rest does not fit its width, which R101 excludes, what
its bits are is the model's choice (log 24). -/
def Obligations.ListingIsReadBackInOrder : Prop :=
  ∀ (s : State) (v : Code) (vs : List Code), Inv s → s.phase = .run → s.host = [] → s.outPos ≠ s.pixCnt →
    v.toNat < 2 ^ s.codeSize.toNat → StreamFrom s (listingBits s.mincs.toNat s.codeRegs (v :: vs)) →
    (listingBits s.mincs.toNat s.codeRegs (v :: vs)).length ≤ 8 * s.inLen - s.bitPos →
    ∃ i s' t, classify s.codeRegs v = .ok i ∧ step s = exec i s' ∧ exec i s' = .next t ∧
      StreamFrom t (listingBits t.mincs.toNat t.codeRegs vs)
end

