-- ==== Sys2Proof/Laws/Decode.lean ====
section
/-! SUPPORT. Bit strings and numbers, and the class of a code. -/

namespace Sys2Proof

/-- The number of the `w` low bits of `n`. -/
theorem natOfBits_bitsOfNat (w n : Nat) : natOfBits (bitsOfNat w n) = n % 2^w := by
  induction w generalizing n with
  | zero => simp [bitsOfNat, natOfBits, Nat.mod_one]
  | succ w ih =>
    simp only [bitsOfNat, natOfBits, ih]
    rw [Nat.pow_succ, Nat.mul_comm (2^w) 2, Nat.mod_mul]
    have : n % 2 = 0 ∨ n % 2 = 1 := by omega
    rcases this with h | h <;> simp [h]

/-- `w` bits are `w` bits. -/
theorem bitsOfNat_length (w n : Nat) : (bitsOfNat w n).length = w := by
  induction w generalizing n with
  | zero => rfl
  | succ w ih => simp [bitsOfNat, ih]

/-- A bit string is the bits of its number. -/
theorem bitsOfNat_natOfBits (bs : List Bool) : bitsOfNat bs.length (natOfBits bs) = bs := by
  induction bs with
  | nil => rfl
  | cons b bs ih =>
    simp only [List.length_cons, bitsOfNat, natOfBits]
    cases b
    · simp [ih]
    · have h1 : (1 + 2 * natOfBits bs) % 2 = 1 := by omega
      have h2 : (1 + 2 * natOfBits bs) / 2 = natOfBits bs := by omega
      simp [h1, h2, ih]

/-- The number of a bit string fits its length. -/
theorem natOfBits_lt (bs : List Bool) : natOfBits bs < 2^bs.length := by
  induction bs with
  | nil => simp [natOfBits]
  | cons b bs ih => simp only [natOfBits, List.length_cons, Nat.pow_succ]; split <;> omega

/-- The class that is answered carries the code that was asked about. -/
theorem codeOf_of_classify {r : CodeRegs} {c : Code} {i} (h : classify r c = .ok i) : codeOf r i = some c.toNat := by
  unfold classify at h
  split_ifs at h with c1 c2 c3 c4 c5 c6 <;> cases h <;> simp [codeOf, *]

end Sys2Proof
end

