-- ==== Sys2Proof/Laws/Memory.lean ====
section
/-! SUPPORT. What the memory operations do: read after write, and that every write keeps the canonical form. -/

namespace Sys2Proof.Machine

@[simp] theorem Memory.read_nil {α : Type} (a : Nat) : Memory.read ([] : Memory α) a = none := rfl

theorem Memory.read_append {α : Type} (m m' : Memory α) (a : Nat) :
    Memory.read (m ++ m') a = (Memory.read m a).orElse (fun _ => Memory.read m' a) := by
  induction m with
  | nil => simp
  | cons c m ih =>
    obtain ⟨b, v⟩ := c
    by_cases h : b = a <;> simp [Memory.read, h, ih]

theorem Memory.read_filter {α : Type} (m : Memory α) (p : Nat → Bool) (a : Nat) :
    Memory.read (m.filter (fun c => p c.1)) a = if p a = true then Memory.read m a else none := by
  induction m with
  | nil => simp
  | cons c m ih =>
    obtain ⟨b, v⟩ := c
    by_cases hb : b = a
    · subst hb
      by_cases hp : p b = true <;> simp [Memory.read, hp, ih]
    · by_cases hp : p b = true <;> simp [Memory.read, hp, hb, ih]

theorem Memory.read_cells {α : Type} (vs : List α) (base a : Nat) :
    Memory.read (Memory.cells base vs) a = if base ≤ a then vs[a - base]? else none := by
  induction vs generalizing base with
  | nil => simp [Memory.cells]
  | cons v vs ih =>
    by_cases hb : base = a
    · simp [Memory.cells, Memory.read, hb]
    · simp only [Memory.cells, Memory.read, if_neg hb, ih]
      by_cases h : base ≤ a
      · have h' : base + 1 ≤ a := by omega
        rw [if_pos h, if_pos h', show a - base = (a - (base + 1)) + 1 by omega, List.getElem?_cons_succ]
      · rw [if_neg h, if_neg (by omega)]

/-- Read after write: the written indices hold the values, every other index what it held. -/
theorem Memory.read_store {α : Type} (m : Memory α) (base : Nat) (vs : List α) (a : Nat) :
    Memory.read (Memory.store m base vs) a =
      if base ≤ a ∧ a < base + vs.length then vs[a - base]? else Memory.read m a := by
  unfold Memory.store
  rw [Memory.read_append, Memory.read_append, Memory.read_filter m (fun x => decide (x < base)),
    Memory.read_filter m (fun x => decide (base + vs.length ≤ x)), Memory.read_cells]
  simp only [decide_eq_true_eq]
  by_cases h1 : a < base
  · have h2 : ¬ base ≤ a := by omega
    have h3 : ¬ base + vs.length ≤ a := by omega
    simp [h1, h2, h3]
  · have h2 : base ≤ a := by omega
    by_cases h3 : base + vs.length ≤ a
    · have h4 : vs[a - base]? = none := by rw [List.getElem?_eq_none_iff]; omega
      have h5 : ¬ a < base + vs.length := by omega
      simp [h1, h2, h3, h4, h5]
    · have h5 : a < base + vs.length := by omega
      have h6 : vs[a - base]? = some (vs[a - base]'(by omega)) := List.getElem?_eq_getElem _
      simp [h1, h2, h3, h5, h6]

theorem Memory.read_store_single {α : Type} (m : Memory α) (b : Nat) (v : α) (a : Nat) :
    Memory.read (Memory.store m b [v]) a = if a = b then some v else Memory.read m a := by
  rw [Memory.read_store]
  by_cases h : a = b
  · subst h; simp
  · rw [if_neg h, if_neg (by simp; omega)]

theorem Memory.cells_bounds {α : Type} (vs : List α) (base : Nat) :
    ∀ c ∈ Memory.cells base vs, base ≤ c.1 ∧ c.1 < base + vs.length := by
  induction vs generalizing base with
  | nil => simp [Memory.cells]
  | cons v vs ih =>
    intro c hc
    rcases List.mem_cons.mp hc with rfl | hc
    · simp
    · have := ih (base + 1) c hc
      simp only [List.length_cons]
      omega

theorem Memory.cells_wf {α : Type} (vs : List α) (base : Nat) : Memory.wf (Memory.cells base vs) := by
  induction vs generalizing base with
  | nil => exact List.Pairwise.nil
  | cons v vs ih =>
    refine List.Pairwise.cons (fun c hc => ?_) (ih (base + 1))
    have := Memory.cells_bounds vs (base + 1) c hc
    simp only
    omega

/-- Every write keeps the canonical form. -/
theorem Memory.store_wf {α : Type} {m : Memory α} (h : Memory.wf m) (base : Nat) (vs : List α) :
    Memory.wf (Memory.store m base vs) := by
  unfold Memory.store Memory.wf
  refine List.pairwise_append.mpr ⟨List.pairwise_append.mpr ⟨h.filter _, Memory.cells_wf vs base, ?_⟩, h.filter _, ?_⟩
  · intro a ha b hb
    have h1 := (List.mem_filter.mp ha).2
    have h2 := (Memory.cells_bounds vs base b hb).1
    simp only [decide_eq_true_eq] at h1
    omega
  · intro a ha b hb
    have h2 := (List.mem_filter.mp hb).2
    simp only [decide_eq_true_eq] at h2
    rcases List.mem_append.mp ha with ha | ha
    · have h1 := (List.mem_filter.mp ha).2
      simp only [decide_eq_true_eq] at h1
      omega
    · have h1 := (Memory.cells_bounds vs base a ha).2
      omega

/-- No index above every listed one holds a value. -/
theorem Memory.read_eq_none {α : Type} {m : Memory α} {b : Nat} (h : ∀ c ∈ m, c.1 < b) {a : Nat} (ha : b ≤ a) :
    Memory.read m a = none := by
  induction m with
  | nil => rfl
  | cons c m ih =>
    have hc := h c List.mem_cons_self
    simp only [Memory.read, if_neg (show ¬ c.1 = a by omega)]
    exact ih (fun c hc => h c (List.mem_cons_of_mem _ hc))

/-- Cells are as many as the values. -/
@[simp] theorem Memory.length_cells {α : Type} (vs : List α) (base : Nat) : (Memory.cells base vs).length = vs.length := by
  induction vs generalizing base with
  | nil => rfl
  | cons v vs ih => simp [Memory.cells, ih]

/-- Cells from index 0 on hold a value exactly below their number. -/
theorem Memory.isSome_read_cells {α : Type} (vs : List α) (a : Nat) :
    (Memory.read (Memory.cells 0 vs) a).isSome = true ↔ a < vs.length := by
  rw [Memory.read_cells, if_pos (Nat.zero_le a)]
  simp

/-- In the canonical form a listed pair is what its index reads as. -/
theorem Memory.read_of_mem {α : Type} {m : Memory α} (h : Memory.wf m) {a : Nat} {v : α} (hm : (a, v) ∈ m) :
    Memory.read m a = some v := by
  induction m with
  | nil => cases hm
  | cons c m ih =>
    obtain ⟨b, w⟩ := c
    rcases List.mem_cons.mp hm with he | hm
    · cases he; simp [Memory.read]
    · have hlt : b < a := (List.pairwise_cons.mp h).1 (a, v) hm
      have hne : b ≠ a := by omega
      simp only [Memory.read, if_neg hne]
      exact ih (List.pairwise_cons.mp h).2 hm

/-- What an index reads as stands in the list. -/
theorem Memory.mem_of_read {α : Type} {m : Memory α} {a : Nat} {v : α} (h : Memory.read m a = some v) : (a, v) ∈ m := by
  induction m with
  | nil => simp at h
  | cons c m ih =>
    obtain ⟨b, w⟩ := c
    by_cases hb : b = a
    · subst hb; simp only [Memory.read, if_true, Option.some.injEq] at h; subst h; exact List.mem_cons_self
    · simp only [Memory.read, if_neg hb] at h
      exact List.mem_cons_of_mem _ (ih h)

/-- Canonical memories that read alike are the same list, so states can be compared as data. -/
theorem Memory.ext_of_wf {α : Type} {m m' : Memory α} (h : Memory.wf m) (h' : Memory.wf m')
    (hr : ∀ a, Memory.read m a = Memory.read m' a) : m = m' := by
  induction m generalizing m' with
  | nil =>
    cases m' with
    | nil => rfl
    | cons c m' => have := hr c.1; simp [Memory.read] at this
  | cons c m ih =>
    cases m' with
    | nil => have := hr c.1; simp [Memory.read] at this
    | cons c' m' =>
      obtain ⟨a, v⟩ := c
      obtain ⟨a', v'⟩ := c'
      have h1 := List.pairwise_cons.mp h
      have h2 := List.pairwise_cons.mp h'
      have e1 : (a, v) ∈ (a', v') :: m' := Memory.mem_of_read (by rw [← hr a]; simp [Memory.read])
      have e2 : (a', v') ∈ (a, v) :: m := Memory.mem_of_read (by rw [hr a']; simp [Memory.read])
      have hle1 : a' ≤ a := by
        rcases List.mem_cons.mp e1 with e | e
        · cases e; exact Nat.le_refl _
        · exact Nat.le_of_lt (h2.1 _ e)
      have hle2 : a ≤ a' := by
        rcases List.mem_cons.mp e2 with e | e
        · cases e; exact Nat.le_refl _
        · exact Nat.le_of_lt (h1.1 _ e)
      obtain rfl : a = a' := by omega
      have hv : v = v' := by have := hr a; simpa [Memory.read] using this
      subst hv
      congr 1
      refine ih h1.2 h2.2 (fun b => ?_)
      by_cases hb : a = b
      · subst hb
        have n1 : Memory.read m a = none := by
          cases hx : Memory.read m a with
          | none => rfl
          | some x => exact absurd (h1.1 _ (Memory.mem_of_read hx)) (by simp)
        have n2 : Memory.read m' a = none := by
          cases hx : Memory.read m' a with
          | none => rfl
          | some x => exact absurd (h2.1 _ (Memory.mem_of_read hx)) (by simp)
        rw [n1, n2]
      · have := hr b
        simpa [Memory.read, hb] using this

/-- The memories of the reset state have the canonical form. -/
theorem State.reset_wf : Memory.wf State.reset.tbl ∧ Memory.wf State.reset.inp ∧ Memory.wf State.reset.out :=
  ⟨List.Pairwise.nil, List.Pairwise.nil, List.Pairwise.nil⟩

end Sys2Proof.Machine
end

