-- ==== Sys2Proof/Laws/State.lean ====
section
/-! SUPPORT. One lemma per field per named update of the state: what the field is afterwards. Each is true by rfl, or by
one case split where the update is conditional, so no later proof unfolds an update to read a field. -/

namespace Sys2Proof.Machine

/-! ### `emit` -/

@[simp] theorem emit_mincs (str : List Sym) (s : State) : (emit str s).mincs = s.mincs := rfl
@[simp] theorem emit_clearCode (str : List Sym) (s : State) : (emit str s).clearCode = s.clearCode := rfl
@[simp] theorem emit_eoiCode (str : List Sym) (s : State) : (emit str s).eoiCode = s.eoiCode := rfl
@[simp] theorem emit_pixCnt (str : List Sym) (s : State) : (emit str s).pixCnt = s.pixCnt := rfl
@[simp] theorem emit_inLen (str : List Sym) (s : State) : (emit str s).inLen = s.inLen := rfl
@[simp] theorem emit_codeSize (str : List Sym) (s : State) : (emit str s).codeSize = s.codeSize := rfl
@[simp] theorem emit_codeMask (str : List Sym) (s : State) : (emit str s).codeMask = s.codeMask := rfl
@[simp] theorem emit_avail (str : List Sym) (s : State) : (emit str s).avail = s.avail := rfl
@[simp] theorem emit_bitBuf (str : List Sym) (s : State) : (emit str s).bitBuf = s.bitBuf := rfl
@[simp] theorem emit_bitCnt (str : List Sym) (s : State) : (emit str s).bitCnt = s.bitCnt := rfl
@[simp] theorem emit_inPos (str : List Sym) (s : State) : (emit str s).inPos = s.inPos := rfl
@[simp] theorem emit_outPos (str : List Sym) (s : State) :
    (emit str s).outPos = BitVec.ofNat 32 (s.outPos.toNat + s.emitCount str) := rfl
@[simp] theorem emit_prevV (str : List Sym) (s : State) : (emit str s).prevV = s.prevV := rfl
@[simp] theorem emit_prev (str : List Sym) (s : State) : (emit str s).prev = s.prev := rfl
@[simp] theorem emit_firstSym (str : List Sym) (s : State) : (emit str s).firstSym = s.firstSym := rfl
@[simp] theorem emit_phase (str : List Sym) (s : State) : (emit str s).phase = s.phase := rfl
@[simp] theorem emit_cause (str : List Sym) (s : State) : (emit str s).cause = s.cause := rfl
@[simp] theorem emit_tbl (str : List Sym) (s : State) : (emit str s).tbl = s.tbl := rfl
@[simp] theorem emit_stk (str : List Sym) (s : State) : (emit str s).stk = s.stk := rfl
@[simp] theorem emit_inp (str : List Sym) (s : State) : (emit str s).inp = s.inp := rfl
@[simp] theorem emit_out (str : List Sym) (s : State) :
    (emit str s).out = Memory.store s.out s.outPos.toNat (str.take (s.emitCount str)) := rfl
@[simp] theorem emit_host (str : List Sym) (s : State) : (emit str s).host = s.host := rfl

/-! ### `stop` -/

@[simp] theorem stop_mincs (c : Cause) (s : State) : (stop c s).mincs = s.mincs := rfl
@[simp] theorem stop_clearCode (c : Cause) (s : State) : (stop c s).clearCode = s.clearCode := rfl
@[simp] theorem stop_eoiCode (c : Cause) (s : State) : (stop c s).eoiCode = s.eoiCode := rfl
@[simp] theorem stop_pixCnt (c : Cause) (s : State) : (stop c s).pixCnt = s.pixCnt := rfl
@[simp] theorem stop_inLen (c : Cause) (s : State) : (stop c s).inLen = s.inLen := rfl
@[simp] theorem stop_codeSize (c : Cause) (s : State) : (stop c s).codeSize = s.codeSize := rfl
@[simp] theorem stop_codeMask (c : Cause) (s : State) : (stop c s).codeMask = s.codeMask := rfl
@[simp] theorem stop_avail (c : Cause) (s : State) : (stop c s).avail = s.avail := rfl
@[simp] theorem stop_bitBuf (c : Cause) (s : State) : (stop c s).bitBuf = s.bitBuf := rfl
@[simp] theorem stop_bitCnt (c : Cause) (s : State) : (stop c s).bitCnt = s.bitCnt := rfl
@[simp] theorem stop_inPos (c : Cause) (s : State) : (stop c s).inPos = s.inPos := rfl
@[simp] theorem stop_outPos (c : Cause) (s : State) : (stop c s).outPos = s.outPos := rfl
@[simp] theorem stop_prevV (c : Cause) (s : State) : (stop c s).prevV = s.prevV := rfl
@[simp] theorem stop_prev (c : Cause) (s : State) : (stop c s).prev = s.prev := rfl
@[simp] theorem stop_firstSym (c : Cause) (s : State) : (stop c s).firstSym = s.firstSym := rfl
@[simp] theorem stop_phase (c : Cause) (s : State) : (stop c s).phase = .done := rfl
@[simp] theorem stop_cause (c : Cause) (s : State) : (stop c s).cause = c := rfl
@[simp] theorem stop_tbl (c : Cause) (s : State) : (stop c s).tbl = s.tbl := rfl
@[simp] theorem stop_stk (c : Cause) (s : State) : (stop c s).stk = s.stk := rfl
@[simp] theorem stop_inp (c : Cause) (s : State) : (stop c s).inp = s.inp := rfl
@[simp] theorem stop_out (c : Cause) (s : State) :
    (stop c s).out = Memory.store s.out s.outPos.toNat (List.replicate (s.pixCnt.toNat - s.outPos.toNat) 0) := rfl
@[simp] theorem stop_host (c : Cause) (s : State) : (stop c s).host = s.host := rfl

/-! ### `addEntry` -/

@[simp] theorem addEntry_mincs (f : Sym) (s : State) : (addEntry f s).mincs = s.mincs := rfl
@[simp] theorem addEntry_clearCode (f : Sym) (s : State) : (addEntry f s).clearCode = s.clearCode := rfl
@[simp] theorem addEntry_eoiCode (f : Sym) (s : State) : (addEntry f s).eoiCode = s.eoiCode := rfl
@[simp] theorem addEntry_pixCnt (f : Sym) (s : State) : (addEntry f s).pixCnt = s.pixCnt := rfl
@[simp] theorem addEntry_inLen (f : Sym) (s : State) : (addEntry f s).inLen = s.inLen := rfl
@[simp] theorem addEntry_codeSize (f : Sym) (s : State) : (addEntry f s).codeSize = s.codeSize := rfl
@[simp] theorem addEntry_codeMask (f : Sym) (s : State) : (addEntry f s).codeMask = s.codeMask := rfl
@[simp] theorem addEntry_avail (f : Sym) (s : State) :
    (addEntry f s).avail = BitVec.ofNat 13 (s.avail.toNat + 1) := rfl
@[simp] theorem addEntry_bitBuf (f : Sym) (s : State) : (addEntry f s).bitBuf = s.bitBuf := rfl
@[simp] theorem addEntry_bitCnt (f : Sym) (s : State) : (addEntry f s).bitCnt = s.bitCnt := rfl
@[simp] theorem addEntry_inPos (f : Sym) (s : State) : (addEntry f s).inPos = s.inPos := rfl
@[simp] theorem addEntry_outPos (f : Sym) (s : State) : (addEntry f s).outPos = s.outPos := rfl
@[simp] theorem addEntry_prevV (f : Sym) (s : State) : (addEntry f s).prevV = s.prevV := rfl
@[simp] theorem addEntry_prev (f : Sym) (s : State) : (addEntry f s).prev = s.prev := rfl
@[simp] theorem addEntry_firstSym (f : Sym) (s : State) : (addEntry f s).firstSym = s.firstSym := rfl
@[simp] theorem addEntry_phase (f : Sym) (s : State) : (addEntry f s).phase = s.phase := rfl
@[simp] theorem addEntry_cause (f : Sym) (s : State) : (addEntry f s).cause = s.cause := rfl
@[simp] theorem addEntry_tbl (f : Sym) (s : State) :
    (addEntry f s).tbl = Memory.store s.tbl s.avail.toNat [{ pfx := s.prev, sfx := f }] := rfl
@[simp] theorem addEntry_stk (f : Sym) (s : State) : (addEntry f s).stk = s.stk := rfl
@[simp] theorem addEntry_inp (f : Sym) (s : State) : (addEntry f s).inp = s.inp := rfl
@[simp] theorem addEntry_out (f : Sym) (s : State) : (addEntry f s).out = s.out := rfl
@[simp] theorem addEntry_host (f : Sym) (s : State) : (addEntry f s).host = s.host := rfl

/-! ### `notePrev` -/

@[simp] theorem notePrev_mincs (c : Code) (f : Sym) (s : State) : (notePrev c f s).mincs = s.mincs := rfl
@[simp] theorem notePrev_clearCode (c : Code) (f : Sym) (s : State) : (notePrev c f s).clearCode = s.clearCode := rfl
@[simp] theorem notePrev_eoiCode (c : Code) (f : Sym) (s : State) : (notePrev c f s).eoiCode = s.eoiCode := rfl
@[simp] theorem notePrev_pixCnt (c : Code) (f : Sym) (s : State) : (notePrev c f s).pixCnt = s.pixCnt := rfl
@[simp] theorem notePrev_inLen (c : Code) (f : Sym) (s : State) : (notePrev c f s).inLen = s.inLen := rfl
@[simp] theorem notePrev_codeSize (c : Code) (f : Sym) (s : State) : (notePrev c f s).codeSize = s.codeSize := rfl
@[simp] theorem notePrev_codeMask (c : Code) (f : Sym) (s : State) : (notePrev c f s).codeMask = s.codeMask := rfl
@[simp] theorem notePrev_avail (c : Code) (f : Sym) (s : State) : (notePrev c f s).avail = s.avail := rfl
@[simp] theorem notePrev_bitBuf (c : Code) (f : Sym) (s : State) : (notePrev c f s).bitBuf = s.bitBuf := rfl
@[simp] theorem notePrev_bitCnt (c : Code) (f : Sym) (s : State) : (notePrev c f s).bitCnt = s.bitCnt := rfl
@[simp] theorem notePrev_inPos (c : Code) (f : Sym) (s : State) : (notePrev c f s).inPos = s.inPos := rfl
@[simp] theorem notePrev_outPos (c : Code) (f : Sym) (s : State) : (notePrev c f s).outPos = s.outPos := rfl
@[simp] theorem notePrev_prevV (c : Code) (f : Sym) (s : State) : (notePrev c f s).prevV = true := rfl
@[simp] theorem notePrev_prev (c : Code) (f : Sym) (s : State) : (notePrev c f s).prev = c := rfl
@[simp] theorem notePrev_firstSym (c : Code) (f : Sym) (s : State) : (notePrev c f s).firstSym = f := rfl
@[simp] theorem notePrev_phase (c : Code) (f : Sym) (s : State) : (notePrev c f s).phase = s.phase := rfl
@[simp] theorem notePrev_cause (c : Code) (f : Sym) (s : State) : (notePrev c f s).cause = s.cause := rfl
@[simp] theorem notePrev_tbl (c : Code) (f : Sym) (s : State) : (notePrev c f s).tbl = s.tbl := rfl
@[simp] theorem notePrev_stk (c : Code) (f : Sym) (s : State) : (notePrev c f s).stk = s.stk := rfl
@[simp] theorem notePrev_inp (c : Code) (f : Sym) (s : State) : (notePrev c f s).inp = s.inp := rfl
@[simp] theorem notePrev_out (c : Code) (f : Sym) (s : State) : (notePrev c f s).out = s.out := rfl
@[simp] theorem notePrev_host (c : Code) (f : Sym) (s : State) : (notePrev c f s).host = s.host := rfl

/-! ### `loadByte` -/

@[simp] theorem loadByte_mincs (b : Byte) (s : State) : (loadByte b s).mincs = s.mincs := rfl
@[simp] theorem loadByte_clearCode (b : Byte) (s : State) : (loadByte b s).clearCode = s.clearCode := rfl
@[simp] theorem loadByte_eoiCode (b : Byte) (s : State) : (loadByte b s).eoiCode = s.eoiCode := rfl
@[simp] theorem loadByte_pixCnt (b : Byte) (s : State) : (loadByte b s).pixCnt = s.pixCnt := rfl
@[simp] theorem loadByte_inLen (b : Byte) (s : State) : (loadByte b s).inLen = s.inLen := rfl
@[simp] theorem loadByte_codeSize (b : Byte) (s : State) : (loadByte b s).codeSize = s.codeSize := rfl
@[simp] theorem loadByte_codeMask (b : Byte) (s : State) : (loadByte b s).codeMask = s.codeMask := rfl
@[simp] theorem loadByte_avail (b : Byte) (s : State) : (loadByte b s).avail = s.avail := rfl
@[simp] theorem loadByte_bitBuf (b : Byte) (s : State) :
    (loadByte b s).bitBuf = s.bitBuf ||| (b.setWidth 19 <<< s.bitCnt.toNat) := rfl
@[simp] theorem loadByte_bitCnt (b : Byte) (s : State) :
    (loadByte b s).bitCnt = BitVec.ofNat 5 (s.bitCnt.toNat + 8) := rfl
@[simp] theorem loadByte_inPos (b : Byte) (s : State) : (loadByte b s).inPos = s.inPos + 1 := rfl
@[simp] theorem loadByte_outPos (b : Byte) (s : State) : (loadByte b s).outPos = s.outPos := rfl
@[simp] theorem loadByte_prevV (b : Byte) (s : State) : (loadByte b s).prevV = s.prevV := rfl
@[simp] theorem loadByte_prev (b : Byte) (s : State) : (loadByte b s).prev = s.prev := rfl
@[simp] theorem loadByte_firstSym (b : Byte) (s : State) : (loadByte b s).firstSym = s.firstSym := rfl
@[simp] theorem loadByte_phase (b : Byte) (s : State) : (loadByte b s).phase = s.phase := rfl
@[simp] theorem loadByte_cause (b : Byte) (s : State) : (loadByte b s).cause = s.cause := rfl
@[simp] theorem loadByte_tbl (b : Byte) (s : State) : (loadByte b s).tbl = s.tbl := rfl
@[simp] theorem loadByte_stk (b : Byte) (s : State) : (loadByte b s).stk = s.stk := rfl
@[simp] theorem loadByte_inp (b : Byte) (s : State) : (loadByte b s).inp = s.inp := rfl
@[simp] theorem loadByte_out (b : Byte) (s : State) : (loadByte b s).out = s.out := rfl
@[simp] theorem loadByte_host (b : Byte) (s : State) : (loadByte b s).host = s.host := rfl

/-! ### `dropCode` -/

@[simp] theorem dropCode_mincs (s : State) : (dropCode s).mincs = s.mincs := rfl
@[simp] theorem dropCode_clearCode (s : State) : (dropCode s).clearCode = s.clearCode := rfl
@[simp] theorem dropCode_eoiCode (s : State) : (dropCode s).eoiCode = s.eoiCode := rfl
@[simp] theorem dropCode_pixCnt (s : State) : (dropCode s).pixCnt = s.pixCnt := rfl
@[simp] theorem dropCode_inLen (s : State) : (dropCode s).inLen = s.inLen := rfl
@[simp] theorem dropCode_codeSize (s : State) : (dropCode s).codeSize = s.codeSize := rfl
@[simp] theorem dropCode_codeMask (s : State) : (dropCode s).codeMask = s.codeMask := rfl
@[simp] theorem dropCode_avail (s : State) : (dropCode s).avail = s.avail := rfl
@[simp] theorem dropCode_bitBuf (s : State) : (dropCode s).bitBuf = s.bitBuf >>> s.codeSize.toNat := rfl
@[simp] theorem dropCode_bitCnt (s : State) :
    (dropCode s).bitCnt = BitVec.ofNat 5 (s.bitCnt.toNat - s.codeSize.toNat) := rfl
@[simp] theorem dropCode_inPos (s : State) : (dropCode s).inPos = s.inPos := rfl
@[simp] theorem dropCode_outPos (s : State) : (dropCode s).outPos = s.outPos := rfl
@[simp] theorem dropCode_prevV (s : State) : (dropCode s).prevV = s.prevV := rfl
@[simp] theorem dropCode_prev (s : State) : (dropCode s).prev = s.prev := rfl
@[simp] theorem dropCode_firstSym (s : State) : (dropCode s).firstSym = s.firstSym := rfl
@[simp] theorem dropCode_phase (s : State) : (dropCode s).phase = s.phase := rfl
@[simp] theorem dropCode_cause (s : State) : (dropCode s).cause = s.cause := rfl
@[simp] theorem dropCode_tbl (s : State) : (dropCode s).tbl = s.tbl := rfl
@[simp] theorem dropCode_stk (s : State) : (dropCode s).stk = s.stk := rfl
@[simp] theorem dropCode_inp (s : State) : (dropCode s).inp = s.inp := rfl
@[simp] theorem dropCode_out (s : State) : (dropCode s).out = s.out := rfl
@[simp] theorem dropCode_host (s : State) : (dropCode s).host = s.host := rfl

/-! ### `resetDictionary` -/

@[simp] theorem resetDictionary_mincs (s : State) : (resetDictionary s).mincs = s.mincs := rfl
@[simp] theorem resetDictionary_clearCode (s : State) : (resetDictionary s).clearCode = s.clearCode := rfl
@[simp] theorem resetDictionary_eoiCode (s : State) : (resetDictionary s).eoiCode = s.eoiCode := rfl
@[simp] theorem resetDictionary_pixCnt (s : State) : (resetDictionary s).pixCnt = s.pixCnt := rfl
@[simp] theorem resetDictionary_inLen (s : State) : (resetDictionary s).inLen = s.inLen := rfl
@[simp] theorem resetDictionary_codeSize (s : State) :
    (resetDictionary s).codeSize = BitVec.ofNat 4 (s.mincs.toNat + 1) := rfl
@[simp] theorem resetDictionary_codeMask (s : State) :
    (resetDictionary s).codeMask = BitVec.ofNat 12 (1 <<< (s.mincs.toNat + 1) - 1) := rfl
@[simp] theorem resetDictionary_avail (s : State) :
    (resetDictionary s).avail = BitVec.ofNat 13 (s.clearCode.toNat + 2) := rfl
@[simp] theorem resetDictionary_bitBuf (s : State) : (resetDictionary s).bitBuf = s.bitBuf := rfl
@[simp] theorem resetDictionary_bitCnt (s : State) : (resetDictionary s).bitCnt = s.bitCnt := rfl
@[simp] theorem resetDictionary_inPos (s : State) : (resetDictionary s).inPos = s.inPos := rfl
@[simp] theorem resetDictionary_outPos (s : State) : (resetDictionary s).outPos = s.outPos := rfl
@[simp] theorem resetDictionary_prevV (s : State) : (resetDictionary s).prevV = false := rfl
@[simp] theorem resetDictionary_prev (s : State) : (resetDictionary s).prev = s.prev := rfl
@[simp] theorem resetDictionary_firstSym (s : State) : (resetDictionary s).firstSym = s.firstSym := rfl
@[simp] theorem resetDictionary_phase (s : State) : (resetDictionary s).phase = s.phase := rfl
@[simp] theorem resetDictionary_cause (s : State) : (resetDictionary s).cause = s.cause := rfl
@[simp] theorem resetDictionary_tbl (s : State) : (resetDictionary s).tbl = s.tbl := rfl
@[simp] theorem resetDictionary_stk (s : State) : (resetDictionary s).stk = s.stk := rfl
@[simp] theorem resetDictionary_inp (s : State) : (resetDictionary s).inp = s.inp := rfl
@[simp] theorem resetDictionary_out (s : State) : (resetDictionary s).out = s.out := rfl
@[simp] theorem resetDictionary_host (s : State) : (resetDictionary s).host = s.host := rfl

/-! ### `launch` -/

@[simp] theorem launch_mincs (m : Byte) (n : BitVec 32) (len : Nat) (s : State) :
    (launch m n len s).mincs = BitVec.ofNat 4 m.toNat := rfl
@[simp] theorem launch_clearCode (m : Byte) (n : BitVec 32) (len : Nat) (s : State) :
    (launch m n len s).clearCode = BitVec.ofNat 9 (1 <<< m.toNat) := rfl
@[simp] theorem launch_eoiCode (m : Byte) (n : BitVec 32) (len : Nat) (s : State) :
    (launch m n len s).eoiCode = BitVec.ofNat 9 (1 <<< m.toNat + 1) := rfl
@[simp] theorem launch_pixCnt (m : Byte) (n : BitVec 32) (len : Nat) (s : State) :
    (launch m n len s).pixCnt = n := rfl
@[simp] theorem launch_inLen (m : Byte) (n : BitVec 32) (len : Nat) (s : State) :
    (launch m n len s).inLen = len := rfl
@[simp] theorem launch_codeSize (m : Byte) (n : BitVec 32) (len : Nat) (s : State) :
    (launch m n len s).codeSize = BitVec.ofNat 4 (m.toNat + 1) := rfl
@[simp] theorem launch_codeMask (m : Byte) (n : BitVec 32) (len : Nat) (s : State) :
    (launch m n len s).codeMask = BitVec.ofNat 12 (1 <<< (m.toNat + 1) - 1) := rfl
@[simp] theorem launch_avail (m : Byte) (n : BitVec 32) (len : Nat) (s : State) :
    (launch m n len s).avail = BitVec.ofNat 13 (1 <<< m.toNat + 2) := rfl
@[simp] theorem launch_bitBuf (m : Byte) (n : BitVec 32) (len : Nat) (s : State) :
    (launch m n len s).bitBuf = 0 := rfl
@[simp] theorem launch_bitCnt (m : Byte) (n : BitVec 32) (len : Nat) (s : State) :
    (launch m n len s).bitCnt = 0 := rfl
@[simp] theorem launch_inPos (m : Byte) (n : BitVec 32) (len : Nat) (s : State) : (launch m n len s).inPos = 0 := rfl
@[simp] theorem launch_outPos (m : Byte) (n : BitVec 32) (len : Nat) (s : State) :
    (launch m n len s).outPos = 0 := rfl
@[simp] theorem launch_prevV (m : Byte) (n : BitVec 32) (len : Nat) (s : State) :
    (launch m n len s).prevV = false := rfl
@[simp] theorem launch_prev (m : Byte) (n : BitVec 32) (len : Nat) (s : State) :
    (launch m n len s).prev = s.prev := rfl
@[simp] theorem launch_firstSym (m : Byte) (n : BitVec 32) (len : Nat) (s : State) :
    (launch m n len s).firstSym = s.firstSym := rfl
@[simp] theorem launch_phase (m : Byte) (n : BitVec 32) (len : Nat) (s : State) :
    (launch m n len s).phase = .run := rfl
@[simp] theorem launch_cause (m : Byte) (n : BitVec 32) (len : Nat) (s : State) :
    (launch m n len s).cause = .none := rfl
@[simp] theorem launch_tbl (m : Byte) (n : BitVec 32) (len : Nat) (s : State) :
    (launch m n len s).tbl = Memory.store s.tbl 0 (seeds (1 <<< m.toNat)) := rfl
@[simp] theorem launch_stk (m : Byte) (n : BitVec 32) (len : Nat) (s : State) : (launch m n len s).stk = s.stk := rfl
@[simp] theorem launch_inp (m : Byte) (n : BitVec 32) (len : Nat) (s : State) : (launch m n len s).inp = s.inp := rfl
@[simp] theorem launch_out (m : Byte) (n : BitVec 32) (len : Nat) (s : State) : (launch m n len s).out = [] := rfl
@[simp] theorem launch_host (m : Byte) (n : BitVec 32) (len : Nat) (s : State) :
    (launch m n len s).host = s.host := rfl

/-! ### `widen`: the fields it never writes -/

@[simp] theorem widen_mincs (s : State) : (widen s).mincs = s.mincs := by unfold widen; split <;> rfl
@[simp] theorem widen_clearCode (s : State) : (widen s).clearCode = s.clearCode := by unfold widen; split <;> rfl
@[simp] theorem widen_eoiCode (s : State) : (widen s).eoiCode = s.eoiCode := by unfold widen; split <;> rfl
@[simp] theorem widen_pixCnt (s : State) : (widen s).pixCnt = s.pixCnt := by unfold widen; split <;> rfl
@[simp] theorem widen_inLen (s : State) : (widen s).inLen = s.inLen := by unfold widen; split <;> rfl
@[simp] theorem widen_avail (s : State) : (widen s).avail = s.avail := by unfold widen; split <;> rfl
@[simp] theorem widen_bitBuf (s : State) : (widen s).bitBuf = s.bitBuf := by unfold widen; split <;> rfl
@[simp] theorem widen_bitCnt (s : State) : (widen s).bitCnt = s.bitCnt := by unfold widen; split <;> rfl
@[simp] theorem widen_inPos (s : State) : (widen s).inPos = s.inPos := by unfold widen; split <;> rfl
@[simp] theorem widen_outPos (s : State) : (widen s).outPos = s.outPos := by unfold widen; split <;> rfl
@[simp] theorem widen_prevV (s : State) : (widen s).prevV = s.prevV := by unfold widen; split <;> rfl
@[simp] theorem widen_prev (s : State) : (widen s).prev = s.prev := by unfold widen; split <;> rfl
@[simp] theorem widen_firstSym (s : State) : (widen s).firstSym = s.firstSym := by unfold widen; split <;> rfl
@[simp] theorem widen_phase (s : State) : (widen s).phase = s.phase := by unfold widen; split <;> rfl
@[simp] theorem widen_cause (s : State) : (widen s).cause = s.cause := by unfold widen; split <;> rfl
@[simp] theorem widen_tbl (s : State) : (widen s).tbl = s.tbl := by unfold widen; split <;> rfl
@[simp] theorem widen_stk (s : State) : (widen s).stk = s.stk := by unfold widen; split <;> rfl
@[simp] theorem widen_inp (s : State) : (widen s).inp = s.inp := by unfold widen; split <;> rfl
@[simp] theorem widen_out (s : State) : (widen s).out = s.out := by unfold widen; split <;> rfl
@[simp] theorem widen_host (s : State) : (widen s).host = s.host := by unfold widen; split <;> rfl

/-! ### `tableAdd`: the fields it never writes -/

@[simp] theorem tableAdd_mincs (f : Sym) (s : State) : (tableAdd f s).mincs = s.mincs := by unfold tableAdd; split <;> simp
@[simp] theorem tableAdd_clearCode (f : Sym) (s : State) : (tableAdd f s).clearCode = s.clearCode := by unfold tableAdd; split <;> simp
@[simp] theorem tableAdd_eoiCode (f : Sym) (s : State) : (tableAdd f s).eoiCode = s.eoiCode := by unfold tableAdd; split <;> simp
@[simp] theorem tableAdd_pixCnt (f : Sym) (s : State) : (tableAdd f s).pixCnt = s.pixCnt := by unfold tableAdd; split <;> simp
@[simp] theorem tableAdd_inLen (f : Sym) (s : State) : (tableAdd f s).inLen = s.inLen := by unfold tableAdd; split <;> simp
@[simp] theorem tableAdd_bitBuf (f : Sym) (s : State) : (tableAdd f s).bitBuf = s.bitBuf := by unfold tableAdd; split <;> simp
@[simp] theorem tableAdd_bitCnt (f : Sym) (s : State) : (tableAdd f s).bitCnt = s.bitCnt := by unfold tableAdd; split <;> simp
@[simp] theorem tableAdd_inPos (f : Sym) (s : State) : (tableAdd f s).inPos = s.inPos := by unfold tableAdd; split <;> simp
@[simp] theorem tableAdd_outPos (f : Sym) (s : State) : (tableAdd f s).outPos = s.outPos := by unfold tableAdd; split <;> simp
@[simp] theorem tableAdd_prevV (f : Sym) (s : State) : (tableAdd f s).prevV = s.prevV := by unfold tableAdd; split <;> simp
@[simp] theorem tableAdd_prev (f : Sym) (s : State) : (tableAdd f s).prev = s.prev := by unfold tableAdd; split <;> simp
@[simp] theorem tableAdd_firstSym (f : Sym) (s : State) : (tableAdd f s).firstSym = s.firstSym := by unfold tableAdd; split <;> simp
@[simp] theorem tableAdd_phase (f : Sym) (s : State) : (tableAdd f s).phase = s.phase := by unfold tableAdd; split <;> simp
@[simp] theorem tableAdd_cause (f : Sym) (s : State) : (tableAdd f s).cause = s.cause := by unfold tableAdd; split <;> simp
@[simp] theorem tableAdd_stk (f : Sym) (s : State) : (tableAdd f s).stk = s.stk := by unfold tableAdd; split <;> simp
@[simp] theorem tableAdd_inp (f : Sym) (s : State) : (tableAdd f s).inp = s.inp := by unfold tableAdd; split <;> simp
@[simp] theorem tableAdd_out (f : Sym) (s : State) : (tableAdd f s).out = s.out := by unfold tableAdd; split <;> simp
@[simp] theorem tableAdd_host (f : Sym) (s : State) : (tableAdd f s).host = s.host := by unfold tableAdd; split <;> simp

end Sys2Proof.Machine
end

