-- ==== Sys2Proof/Laws/Ops.lean ====
section
/-! SUPPORT. For each shared operation, what it can do, said once: the stack, the chain walk, emission, the stop, the
table add, the end of a data code, the fetch. -/

namespace Sys2Proof.Machine

/-- A push with room (R68). -/
theorem push_of_room {s : State} (v : Sym) (h : s.stk.length < 4096) : push v s = .ok { s with stk := v :: s.stk } := by
  unfold push State.sp Config.stackDepth
  rw [if_pos h]

/-- Everything a push can answer. -/
theorem push_cases (v : Sym) (s : State) :
    (push v s = .ok { s with stk := v :: s.stk } ∧ s.stk.length < 4096) ∨ push v s = .error .stackOverflow := by
  unfold push State.sp Config.stackDepth
  by_cases h : s.stk.length < 4096
  · left; exact ⟨by rw [if_pos h], h⟩
  · right; rw [if_neg h]

/-- Popping symbol by symbol until the stack is empty is `popAll` (R161). -/
theorem popAll_of_pop {s s' : State} {v : Sym} (h : pop s = some (v, s')) :
    popAll s = (v :: (popAll s').1, (popAll s').2) := by
  unfold pop at h
  split at h
  · cases h
  · next w rest hs => cases h; simp [popAll, hs]

theorem Str.ne_nil {clear : Nat} {tbl : Memory Entry} {c : Code} {l : List Sym} (h : Str clear tbl c l) : l ≠ [] := by
  cases h <;> simp

/-- A code has one string (R160). -/
theorem Str.unique {clear : Nat} {tbl : Memory Entry} {c : Code} {l l' : List Sym} (h : Str clear tbl c l)
    (h' : Str clear tbl c l') : l = l' := by
  induction h generalizing l' with
  | base hc =>
    cases h' with
    | base _ => rfl
    | link hc' _ _ => omega
  | link hc he _ ih =>
    cases h' with
    | base hc' => omega
    | link hc' he' h' =>
      rw [he] at he'
      cases he'
      rw [ih h']

/-- The chain walk leaves the string of the code on the stack, first symbol on top (R161). -/
theorem walkFrom_of_str {clear : Nat} {tbl : Memory Entry} {c : Code} {l : List Sym} (h : Str clear tbl c l) :
    ∀ (n : Nat) (s : State), s.clearCode.toNat = clear → s.tbl = tbl → l.length ≤ n →
      s.stk.length + l.length ≤ 4096 → walkFrom n c s = .ok { s with stk := l ++ s.stk } := by
  induction h with
  | base hc =>
    intro n s h1 h2 h3 h4
    cases n with
    | zero => simp at h3
    | succ n =>
      simp only [List.length_singleton] at h4
      simp only [walkFrom, h1, if_pos hc]
      rw [push_of_room _ (by omega)]
      rfl
  | link hc he _ ih =>
    intro n s h1 h2 h3 h4
    cases n with
    | zero => simp at h3
    | succ n =>
      simp only [List.length_append, List.length_singleton] at h3 h4
      simp only [walkFrom, h1, if_neg (Nat.not_lt.mpr (Nat.le_trans (Nat.le_add_right _ 2) hc)), h2, he]
      rw [push_of_room _ (by omega)]
      simp only
      subst h2
      refine (ih n { s with stk := _ :: s.stk } h1 rfl (by omega) ?_).trans (by simp)
      simp only [List.length_cons]
      omega

theorem walk_of_str {s : State} {c : Code} {l : List Sym} (h : Str s.clearCode.toNat s.tbl c l)
    (hroom : s.stk.length + l.length ≤ 4096) : walk c s = .ok { s with stk := l ++ s.stk } :=
  walkFrom_of_str h _ s rfl rfl (by unfold Config.stackDepth; omega) hroom

/-- Whatever the table holds, a walk that answers has changed the stack only. -/
theorem walkFrom_frame {n : Nat} {c : Code} {s t : State} (h : walkFrom n c s = .ok t) :
    t = { s with stk := t.stk } := by
  induction n generalizing c s with
  | zero => cases h
  | succ n ih =>
    unfold walkFrom at h
    split at h
    · rcases push_cases (c.setWidth 8) s with ⟨hp, _⟩ | hp <;> rw [hp] at h <;> cases h
      rfl
    · split at h
      · cases h
      · next e he =>
        rcases push_cases e.sfx s with ⟨hp, _⟩ | hp <;> rw [hp] at h <;> simp only at h
        · have := ih h
          exact this
        · cases h

/-- What emission leaves at one index of `OUT` (R162). -/
theorem emit_read_out (str : List Sym) (s : State) (i : Nat) :
    Memory.read (emit str s).out i =
      if s.outPos.toNat ≤ i ∧ i < s.outPos.toNat + s.emitCount str then str[i - s.outPos.toNat]? else Memory.read s.out i := by
  have hk : (str.take (s.emitCount str)).length = s.emitCount str := by
    rw [List.length_take]
    exact Nat.min_eq_left (Nat.min_le_left _ _)
  rw [emit_out, Memory.read_store, hk]
  by_cases h : s.outPos.toNat ≤ i ∧ i < s.outPos.toNat + s.emitCount str
  · rw [if_pos h, if_pos h, List.getElem?_take_of_lt (by omega)]
  · rw [if_neg h, if_neg h]

/-- How far emission moves `OUTPOS` (R162). -/
theorem emit_outPos_toNat (str : List Sym) (s : State) :
    (emit str s).outPos.toNat = s.outPos.toNat + s.emitCount str := by
  rw [emit_outPos, BitVec.toNat_ofNat]
  have h1 : s.emitCount str ≤ s.pixCnt.toNat - s.outPos.toNat := Nat.min_le_right _ _
  have h2 := s.pixCnt.isLt
  have h3 := s.outPos.isLt
  omega

/-- What the stop leaves at one index of `OUT` (R195). -/
theorem stop_read_out (c : Cause) (s : State) (i : Nat) :
    Memory.read (stop c s).out i =
      if s.outPos.toNat ≤ i ∧ i < s.pixCnt.toNat then some 0 else Memory.read s.out i := by
  rw [stop_out, Memory.read_store, List.length_replicate]
  by_cases h : s.outPos.toNat ≤ i ∧ i < s.pixCnt.toNat
  · rw [if_pos h, if_pos (by omega), List.getElem?_replicate, if_pos (by omega)]
  · rw [if_neg h, if_neg (by omega)]

/-- What the table add leaves at one entry (R163). -/
theorem tableAdd_read_tbl (f : Sym) (s : State) (e : Nat) :
    Memory.read (tableAdd f s).tbl e =
      if s.prevV = true ∧ s.avail.toNat < 4096 ∧ e = s.avail.toNat then some { pfx := s.prev, sfx := f }
      else Memory.read s.tbl e := by
  unfold tableAdd Config.tableCap
  by_cases h : s.prevV = true ∧ s.avail.toNat < 4096
  · rw [if_pos h, widen_tbl, addEntry_tbl, Memory.read_store_single]
    by_cases he : e = s.avail.toNat
    · rw [if_pos he, if_pos ⟨h.1, h.2, he⟩]
    · rw [if_neg he, if_neg (fun hh => he hh.2.2)]
  · rw [if_neg h, if_neg (fun hh => h ⟨hh.1, hh.2.1⟩)]

/-- What the table add makes of `AVAIL` (R163). -/
theorem tableAdd_avail_toNat (f : Sym) (s : State) :
    (tableAdd f s).avail.toNat = if s.prevV = true ∧ s.avail.toNat < 4096 then s.avail.toNat + 1 else s.avail.toNat := by
  unfold tableAdd Config.tableCap
  by_cases h : s.prevV = true ∧ s.avail.toNat < 4096
  · rw [if_pos h, if_pos h, widen_avail, addEntry_avail, BitVec.toNat_ofNat]
    have := h.2
    omega
  · rw [if_neg h, if_neg h]

/-- The test of R164 in a step that adds an entry. -/
abbrev State.growsOnAdd (s : State) : Prop :=
  s.prevV = true ∧ s.avail.toNat < 4096 ∧ (s.avail.toNat + 1) &&& s.codeMask.toNat = 0 ∧ s.codeSize.toNat < 12

theorem shift_or_one (x : BitVec 12) : BitVec.ofNat 12 (x.toNat <<< 1 ||| 1) = x <<< 1 ||| 1#12 := by
  apply BitVec.eq_of_toNat_eq
  rw [BitVec.toNat_ofNat, BitVec.toNat_or, BitVec.toNat_shiftLeft, Nat.or_mod_two_pow]
  rfl

/-- What the table add makes of the width: it grows exactly in the case of R164. -/
theorem tableAdd_width (f : Sym) (s : State) :
    (s.growsOnAdd → (tableAdd f s).codeSize.toNat = s.codeSize.toNat + 1 ∧ (tableAdd f s).codeMask = s.codeMask <<< 1 ||| 1#12) ∧
      (¬ s.growsOnAdd → (tableAdd f s).codeSize = s.codeSize ∧ (tableAdd f s).codeMask = s.codeMask) := by
  unfold tableAdd Config.tableCap State.growsOnAdd
  by_cases h : s.prevV = true ∧ s.avail.toNat < 4096
  · have h2 := h.2
    have ha : (addEntry f s).avail.toNat = s.avail.toNat + 1 := by
      rw [addEntry_avail, BitVec.toNat_ofNat]; omega
    rw [if_pos h]
    unfold widen Config.maxCodeWidth
    rw [ha, addEntry_codeMask, addEntry_codeSize]
    by_cases hg : (s.avail.toNat + 1) &&& s.codeMask.toNat = 0 ∧ s.codeSize.toNat < 12
    · rw [if_pos hg]
      refine ⟨fun _ => ⟨?_, shift_or_one _⟩, fun hn => absurd ⟨h.1, h.2, hg.1, hg.2⟩ hn⟩
      simp only [BitVec.toNat_ofNat]
      have := hg.2
      omega
    · rw [if_neg hg]
      exact ⟨fun hh => absurd ⟨hh.2.2.1, hh.2.2.2⟩ hg, fun _ => ⟨rfl, rfl⟩⟩
  · rw [if_neg h]
    exact ⟨fun hh => absurd ⟨hh.1, hh.2.1⟩ h, fun _ => ⟨rfl, rfl⟩⟩

/-- Emission, table add and update one after another have the effect of R162 to R165. -/
theorem dataUpdate_effect (s : State) (code : Code) (f : Sym) (str : List Sym) :
    DataEffect s code f str (notePrev code f (tableAdd f (emit str s))) := by
  have hw := tableAdd_width f (emit str s)
  have hg : (emit str s).growsOnAdd ↔ s.growsOnAdd := Iff.rfl
  constructor
  · rw [notePrev_outPos, tableAdd_outPos, emit_outPos_toNat]; rfl
  · intro i h1 h2
    rw [notePrev_outPos, tableAdd_outPos, emit_outPos_toNat] at h2
    rw [notePrev_out, tableAdd_out, emit_read_out, if_pos ⟨h1, h2⟩]
  · intro i h1
    rw [notePrev_outPos, tableAdd_outPos, emit_outPos_toNat] at h1
    rw [notePrev_out, tableAdd_out, emit_read_out, if_neg (by omega)]
  · rw [notePrev_avail, tableAdd_avail_toNat, emit_prevV, emit_avail]
  · intro h1 h2
    rw [notePrev_tbl, tableAdd_read_tbl]
    exact if_pos ⟨h1, h2, rfl⟩
  · intro e h1
    rw [notePrev_tbl, tableAdd_read_tbl]
    exact if_neg h1
  · intro h1 h2 h3 h4
    exact hw.1 ⟨h1, h2, h3, h4⟩
  · intro h1
    exact hw.2 h1
  · exact ⟨rfl, rfl, rfl⟩
  · unfold tableAdd widen
    split
    · split <;> rfl
    · rfl

/-- The end of a data code (R169): with a string on the stack it completes with the effect of R162 to R165. -/
theorem finishData_effect {s : State} {f : Sym} {l : List Sym} (code : Code) (h : s.stk = f :: l) :
    ∃ t, finishData code s = .next t ∧ DataEffect { s with stk := [] } code f (f :: l) t :=
  ⟨_, by simp [finishData, popAll, h], dataUpdate_effect _ code f (f :: l)⟩

/-- `t` differs from `s` in the bit buffer and the input position only. -/
abbrev SameButBuffer (s t : State) : Prop := t = { s with bitBuf := t.bitBuf, bitCnt := t.bitCnt, inPos := t.inPos }

theorem SameButBuffer.load {b : Byte} {s t : State} (h : SameButBuffer (loadByte b s) t) : SameButBuffer s t := h

/-- Filling the buffer changes `BITBUF`, `BITCNT` and `INPOS` only. -/
theorem fillBuffer_frame (n : Nat) (s : State) :
    (∀ t, fillBuffer n s = .ready t → SameButBuffer s t) ∧ (∀ t, fillBuffer n s = .ended t → SameButBuffer s t) := by
  induction n generalizing s with
  | zero => exact ⟨fun t h => (by cases h; rfl), fun t h => (nomatch h)⟩
  | succ n ih =>
    unfold fillBuffer
    split
    · exact ⟨fun t h => (by cases h; rfl), fun t h => (nomatch h)⟩
    · split
      · exact ⟨fun t h => (nomatch h), fun t h => (by cases h; rfl)⟩
      · split
        · exact ⟨fun t h => (nomatch h), fun t h => (nomatch h)⟩
        · exact ⟨fun t h => ((ih _).1 t h).load, fun t h => ((ih _).2 t h).load⟩

/-- The fetch changes `BITBUF`, `BITCNT` and `INPOS` only, whether it answers a code or the end of the input. -/
theorem fetch_frame (s : State) :
    (∀ c t, fetch s = .code c t → SameButBuffer s t) ∧ (∀ t, fetch s = .ended t → SameButBuffer s t) := by
  have hf := fillBuffer_frame 2 s
  unfold fetch
  split
  · next u hu =>
    refine ⟨fun c t h => ?_, fun t h => (nomatch h)⟩
    cases h
    have := hf.1 u hu
    generalize hu' : dropCode u = v
    unfold SameButBuffer at this
    rw [this] at hu'
    subst hu'
    rfl
  · next u hu =>
    refine ⟨fun c t h => (nomatch h), fun t h => ?_⟩
    cases h
    exact hf.2 u hu
  · exact ⟨fun c t h => (nomatch h), fun t h => (nomatch h)⟩

/-- Everything a step in `RUN` can do: stop on a full output, stop at the end of the input, run the class of the code
fetched, or be refused on a byte never supplied or a code of no class (R124). -/
theorem codeStep_cases (s : State) :
    (s.outPos = s.pixCnt ∧ codeStep s = .next (stop .complete s)) ∨
    (s.outPos ≠ s.pixCnt ∧ ∃ s', fetch s = .ended s' ∧ codeStep s = .next (stop .exhausted s')) ∨
    (s.outPos ≠ s.pixCnt ∧ ∃ i, fetch s = .absent i ∧ codeStep s = .refused (.inputNotSupplied i)) ∨
    (s.outPos ≠ s.pixCnt ∧ ∃ c s' i, fetch s = .code c s' ∧ classify s'.codeRegs c = .ok i ∧ codeStep s = exec i s') ∨
    (s.outPos ≠ s.pixCnt ∧ ∃ c s' e, fetch s = .code c s' ∧ classify s'.codeRegs c = .error e ∧
      codeStep s = .refused (.unclassified c)) := by
  unfold codeStep
  by_cases h : s.outPos = s.pixCnt
  · left; exact ⟨h, by rw [if_pos h]⟩
  · rw [if_neg h]
    right
    cases hf : fetch s with
    | ended s' => left; exact ⟨h, s', rfl, rfl⟩
    | absent i => right; left; exact ⟨h, i, rfl, rfl⟩
    | code c s' =>
      right; right
      cases hc : classify s'.codeRegs c with
      | ok i => left; exact ⟨h, c, s', i, rfl, hc, by simp [hc]⟩
      | error e => right; exact ⟨h, c, s', e, rfl, hc, by simp [hc]⟩

end Sys2Proof.Machine
end

