-- ==== Sys2Proof/Laws/Exec.lean ====
section
/-! SUPPORT. Everything an instruction and the block's own step can do when they complete. -/

namespace Sys2Proof.Machine

/-- Everything the end of a data code can be when it completes (R169). -/
theorem finishData_cases {code : Code} {s t : State} (h : finishData code s = .next t) :
    ∃ f l, s.stk = f :: l ∧ t = notePrev code f (tableAdd f (emit (f :: l) { s with stk := [] })) := by
  unfold finishData popAll at h
  split at h
  · cases h
  · next f l hs => cases h; exact ⟨f, l, hs, rfl⟩

/-- A walk that answers has changed the stack only (R161). -/
theorem walk_frame {c : Code} {s t : State} (h : walk c s = .ok t) : t = { s with stk := t.stk } := walkFrom_frame h

/-- `t` is what a data code leaves of `s` when it completes: some string emitted, then R163 to R165. -/
abbrev DataDone (code : Code) (s t : State) : Prop :=
  ∃ f l, t = notePrev code f (tableAdd f (emit (f :: l) { s with stk := [] }))

theorem finishData_done {code : Code} {s u t : State} (hu : u = { s with stk := u.stk })
    (h : finishData code u = .next t) : DataDone code s t := by
  obtain ⟨f, l, _, ht⟩ := finishData_cases h
  exact ⟨f, l, by rw [ht, hu]⟩

/-- From an empty stack, with the string on it, the end of a data code is exactly this (R169). -/
theorem finishData_on {s : State} (hs : s.stk = []) (code : Code) (f : Sym) (l : List Sym) :
    finishData code { s with stk := f :: l } = .next (notePrev code f (tableAdd f (emit (f :: l) s))) := by
  have : ({ s with stk := [] } : State) = s := by rw [← hs]
  simp [finishData, popAll, this]

theorem execLit_done {code : Code} {s t : State} (h : execLit code s = .next t) : DataDone code s t := by
  unfold execLit at h
  rcases push_cases (code.setWidth 8) s with ⟨hp, _⟩ | hp <;> rw [hp] at h
  · exact finishData_done (u := { s with stk := code.setWidth 8 :: s.stk }) rfl h
  · cases h

theorem execEntry_done {code : Code} {s t : State} (h : execEntry code s = .next t) : DataDone code s t := by
  unfold execEntry at h
  split at h
  · next u hu => exact finishData_done (walk_frame hu) h
  · cases h

theorem execKwkwk_done {code : Code} {s t : State} (h : execKwkwk code s = .next t) : DataDone code s t := by
  unfold execKwkwk at h
  rcases push_cases s.firstSym s with ⟨hp, _⟩ | hp <;> rw [hp] at h
  · simp only at h
    split at h
    · next u hu => exact finishData_done (by have := walk_frame hu; exact this) h
    · cases h
  · cases h

/-- Everything an instruction can do when it completes. -/
theorem exec_cases {i : Instr} {s t : State} (h : exec i s = .next t) :
    (i = .clear ∧ t = resetDictionary s) ∨ (i = .eoi ∧ t = stop .eoi s) ∨
    ((∃ c, i = .invalid c) ∧ t = stop .invalid s) ∨
    (∃ c, (i = .lit c ∨ i = .entry c ∨ i = .kwkwk c) ∧ DataDone c s t) ∨
    (∃ m n len, i = .start m n len ∧
      ((s.phase = .run ∧ t = s) ∨ (s.phase ≠ .run ∧ 2 ≤ m.toNat ∧ m.toNat ≤ 8 ∧ s.suppliedBytes = len ∧ t = launch m n len s))) := by
  cases i with
  | clear => left; cases h; exact ⟨rfl, rfl⟩
  | eoi => right; left; cases h; exact ⟨rfl, rfl⟩
  | invalid c => right; right; left; cases h; exact ⟨⟨c, rfl⟩, rfl⟩
  | lit c => right; right; right; left; exact ⟨c, .inl rfl, execLit_done h⟩
  | entry c => right; right; right; left; exact ⟨c, .inr (.inl rfl), execEntry_done h⟩
  | kwkwk c => right; right; right; left; exact ⟨c, .inr (.inr rfl), execKwkwk_done h⟩
  | start m n len =>
    right; right; right; right
    refine ⟨m, n, len, rfl, ?_⟩
    unfold exec at h
    simp only at h
    unfold execStart at h
    by_cases h1 : s.phase = .run
    · rw [if_pos h1] at h; left; cases h; exact ⟨h1, rfl⟩
    · rw [if_neg h1] at h
      by_cases h2 : Config.minCodeSizeLow ≤ m.toNat ∧ m.toNat ≤ Config.minCodeSizeHigh
      · rw [if_pos h2] at h
        by_cases h3 : s.suppliedBytes = len
        · rw [if_pos h3] at h; right; cases h; exact ⟨h1, h2.1, h2.2, h3, rfl⟩
        · rw [if_neg h3] at h; cases h
      · rw [if_neg h2] at h; cases h

/-- Everything the block's own step can end in. -/
theorem codeStep_next {s t : State} (h : codeStep s = .next t) :
    (s.outPos = s.pixCnt ∧ t = stop .complete s) ∨
    (s.outPos ≠ s.pixCnt ∧ ∃ s', fetch s = .ended s' ∧ t = stop .exhausted s') ∨
    (s.outPos ≠ s.pixCnt ∧ ∃ c s' i, fetch s = .code c s' ∧ classify s'.codeRegs c = .ok i ∧ exec i s' = .next t) := by
  rcases codeStep_cases s with ⟨h1, h2⟩ | ⟨h1, s', h2, h3⟩ | ⟨h1, i, h2, h3⟩ | ⟨h1, c, s', i, h2, h3, h4⟩ |
      ⟨h1, c, s', e, h2, h3, h4⟩
  · rw [h2] at h; cases h; exact .inl ⟨h1, rfl⟩
  · rw [h3] at h; cases h; exact .inr (.inl ⟨h1, s', h2, rfl⟩)
  · rw [h3] at h; cases h
  · rw [h4] at h; exact .inr (.inr ⟨h1, c, s', i, h2, h3, h⟩)
  · rw [h4] at h; cases h

/-- While `PHASE` = `RUN` the block takes the step of R124. -/
theorem blockStep_of_run {s : State} (h : s.phase = .run) : blockStep s = codeStep s := by
  unfold blockStep; rw [h]

/-- In `IDLE` and `DONE` the block does nothing (R124, R210). -/
theorem blockStep_of_rest {s : State} (h : s.phase ≠ .run) : blockStep s = .next s := by
  unfold blockStep
  cases hp : s.phase <;> simp_all

/-- In the machine whose host makes no move, a step is the block's own. -/
theorem step_of_no_host {s : State} (h : s.host = []) : step s = blockStep s := by
  unfold step cycle; rw [h]

/-- In a run whose host makes no move, a step is the step of R124. -/
theorem step_run {s : State} (hh : s.host = []) (hr : s.phase = .run) : step s = codeStep s :=
  (step_of_no_host hh).trans (blockStep_of_run hr)

/-- Where the host makes a move, a step is that move (R234). -/
theorem step_of_host {s : State} {m : HostMove} {rest : List HostMove} (h : s.host = m :: rest) :
    step s = hostTurn m { s with host := rest } := by
  unfold step cycle; rw [h]

/-- A `START` with a legal argument and the length of `IN`, outside a run, is the launch (R120). -/
theorem execStart_launch {s : State} {m : Byte} (n : BitVec 32) {len : Nat} (hp : s.phase ≠ .run) (h1 : 2 ≤ m.toNat)
    (h2 : m.toNat ≤ 8) (hl : s.suppliedBytes = len) : execStart m n len s = .next (launch m n len s) := by
  unfold execStart
  rw [if_neg hp, if_pos ⟨h1, h2⟩, if_pos hl]

/-- In a run `IN` holds a value exactly below `INLEN` (R231). -/
theorem Inv.read_inp {s : State} (h : Inv s) (hr : s.phase = .run) (i : Nat) :
    (Memory.read s.inp i).isSome = true ↔ i < s.inLen := by
  obtain ⟨bytes, hb⟩ := h.inp_seq
  have hl := (h.when_running hr).input_whole
  rw [State.suppliedBytes, hb, Memory.length_cells] at hl
  rw [hb, Memory.isSome_read_cells, hl]

/-- What a launch leaves at one entry: the seeds, and every other entry as it was (R122). -/
theorem launch_read_tbl (m : Byte) (n : BitVec 32) (len : Nat) (s : State) (e : Nat) :
    Memory.read (launch m n len s).tbl e =
      if e < 1 <<< m.toNat then some { pfx := 0, sfx := BitVec.ofNat 8 e } else Memory.read s.tbl e := by
  rw [launch_tbl, Memory.read_store]
  by_cases h : e < 1 <<< m.toNat
  · rw [if_pos h, if_pos (by simp [seeds, h])]
    simp [seeds, h]
  · rw [if_neg h, if_neg (by simp [seeds]; omega)]

/-- The string of a code depends on the entries below it only, each of which names an entry below itself (R46). -/
theorem Str.transport {s : State} (h : Launched s) {tbl' : Memory Entry}
    (ha : ∀ e, s.clearCode.toNat + 2 ≤ e → e < s.avail.toNat → Memory.read tbl' e = Memory.read s.tbl e)
    {c : Code} {l : List Sym} (hs : Str s.clearCode.toNat s.tbl c l) (hc : c.toNat < s.avail.toNat) :
    Str s.clearCode.toNat tbl' c l := by
  induction hs with
  | base hb => exact .base hb
  | link h2 he _ ih =>
    obtain ⟨en, he', hlt, _⟩ := h.entries _ h2 hc
    rw [he] at he'
    cases he'
    exact .link h2 (by rw [ha _ h2 hc, he]) (ih (by omega))

/-- One more step of the machine behind the host's interface. -/
theorem run_succ_of_step {s t : State} (k : Nat) (h : step s = .next t) :
    Sys2Proof.core.run (k + 1) s = Sys2Proof.core.run k t :=
  have hs : Sys2Proof.core.step s = .next t := h
  show Host.Core.run _ _ _ = _ by simp only [Host.Core.run, hs]

end Sys2Proof.Machine
end

