-- ==== Sys2Proof/Laws/Fetch.lean ====
section
/-! SUPPORT. The bit buffer: loading a byte, filling and fetching keep it true to the stream (R30, R69, R126). -/

namespace Sys2Proof.Machine

/-- What R30, R42 and R43 say of the bit buffer between two loads of a byte. -/
structure FillOk (s : State) : Prop where
  buf : BufferOk s
  small : s.bitBuf.toNat < 2 ^ s.bitCnt.toNat
  within : s.inPos ≤ s.inLen

/-- The buffer holds zeros above its count (R42). -/
theorem bitBuf_high {s : State} (h : s.bitBuf.toNat < 2 ^ s.bitCnt.toNat) {j : Nat} (hj : s.bitCnt.toNat ≤ j) :
    s.bitBuf.getLsbD j = false := by
  rw [BitVec.getLsbD]
  exact Nat.testBit_lt_two_pow (Nat.lt_of_lt_of_le h (Nat.pow_le_pow_right (by decide) hj))

/-- A stream bit depends on `IN` only. -/
theorem SameButBuffer.streamBit {s t : State} (h : SameButBuffer s t) (k : Nat) : t.streamBit k = s.streamBit k := by
  rw [h]; rfl

/-- Loading a byte of `IN` keeps the buffer true to the stream and leaves `BITPOS` (R126). -/
theorem loadByte_ok {s : State} {b : Byte} (h : FillOk s) (hr : Memory.read s.inp s.inPos = some b)
    (hc : s.bitCnt.toNat ≤ 11) (hin : s.inPos < s.inLen) :
    FillOk (loadByte b s) ∧ (loadByte b s).bitCnt.toNat = s.bitCnt.toNat + 8 ∧ (loadByte b s).bitPos = s.bitPos := by
  have hcnt : (loadByte b s).bitCnt.toNat = s.bitCnt.toNat + 8 := by simp; omega
  have hl := h.buf.loaded
  have hpos : (loadByte b s).bitPos = s.bitPos := by simp only [State.bitPos, hcnt, loadByte_inPos]; omega
  refine ⟨⟨⟨?_, ?_⟩, ?_, ?_⟩, hcnt, hpos⟩
  · rw [hcnt, loadByte_inPos]; omega
  · intro j hj
    rw [hcnt] at hj
    rw [hpos]
    have hsb : (loadByte b s).streamBit (s.bitPos + j) = s.streamBit (s.bitPos + j) := rfl
    rw [hsb, loadByte_bitBuf, BitVec.getLsbD_or, BitVec.getLsbD_shiftLeft, BitVec.getLsbD_setWidth]
    by_cases hjb : j < s.bitCnt.toNat
    · rw [h.buf.bits j hjb]; simp [hjb]
    · rw [bitBuf_high h.small (by omega)]
      have e1 : (s.bitPos + j) / 8 = s.inPos := by simp only [State.bitPos]; omega
      have e2 : (s.bitPos + j) % 8 = j - s.bitCnt.toNat := by simp only [State.bitPos]; omega
      have d1 : j < 19 := by omega
      have d2 : j - s.bitCnt.toNat < 19 := by omega
      simp [State.streamBit, e1, e2, hr, hjb, d1, d2]
  · rw [hcnt, loadByte_bitBuf, BitVec.toNat_or]
    refine Nat.or_lt_two_pow ?_ ?_
    · exact Nat.lt_of_lt_of_le h.small (Nat.pow_le_pow_right (by decide) (by omega))
    · rw [BitVec.toNat_shiftLeft, Nat.shiftLeft_eq]
      refine Nat.lt_of_le_of_lt (Nat.mod_le _ _) ?_
      rw [Nat.pow_add, Nat.mul_comm]
      refine Nat.mul_lt_mul_of_pos_left ?_ (Nat.two_pow_pos _)
      simp; omega
  · rw [loadByte_inPos, loadByte_inLen]; omega

/-- Filling the buffer keeps it true to the stream and leaves `BITPOS`; when it answers that the input has ended, all of
it is loaded and too few bits are there (R126, R127). -/
theorem fillBuffer_ok (n : Nat) (s : State) (h : FillOk s) (h12 : s.codeSize.toNat ≤ 12) :
    (∀ t, fillBuffer n s = .ready t → FillOk t ∧ t.bitPos = s.bitPos ∧
      (t.bitCnt.toNat ≤ s.bitCnt.toNat ∨ t.bitCnt.toNat ≤ s.codeSize.toNat + 7) ∧
      (s.codeSize.toNat ≤ s.bitCnt.toNat + 8 * n → s.codeSize.toNat ≤ t.bitCnt.toNat)) ∧
    (∀ t, fillBuffer n s = .ended t →
      FillOk t ∧ t.bitPos = s.bitPos ∧ t.bitCnt.toNat < s.codeSize.toNat ∧ t.inPos = s.inLen) := by
  induction n generalizing s with
  | zero =>
    exact ⟨fun t ht => (by cases ht; exact ⟨h, rfl, .inl (Nat.le_refl _), fun hh => by omega⟩), fun t ht => (nomatch ht)⟩
  | succ n ih =>
    unfold fillBuffer
    by_cases hle : s.codeSize.toNat ≤ s.bitCnt.toNat
    · rw [if_pos hle]
      exact ⟨fun t ht => (by cases ht; exact ⟨h, rfl, .inl (Nat.le_refl _), fun hh => hle⟩), fun t ht => (nomatch ht)⟩
    · have hw := h.within
      rw [if_neg hle]
      by_cases he : s.inPos = s.inLen
      · rw [if_pos he]
        exact ⟨fun t ht => (nomatch ht), fun t ht => (by cases ht; exact ⟨h, rfl, by omega, he⟩)⟩
      · rw [if_neg he]
        cases hb : Memory.read s.inp s.inPos with
        | none => exact ⟨fun t ht => (nomatch ht), fun t ht => (nomatch ht)⟩
        | some b =>
          obtain ⟨k1, k2, k3⟩ := loadByte_ok h hb (by omega) (by omega)
          obtain ⟨i1, i2⟩ := ih (loadByte b s) k1 h12
          rw [k2, k3] at i1
          rw [k3] at i2
          refine ⟨fun t ht => ?_, fun t ht => i2 t ht⟩
          obtain ⟨j1, j2, j3, j4⟩ := i1 t ht
          simp only [loadByte_codeSize] at j3 j4
          exact ⟨j1, j2, by omega, fun hh => j4 (by omega)⟩

/-- A byte the model misses lies below `INLEN` and holds no value (R231). -/
theorem fillBuffer_absent (n : Nat) (s : State) (h : s.inPos ≤ s.inLen) (i : Nat) (hi : fillBuffer n s = .absent i) :
    i < s.inLen ∧ Memory.read s.inp i = none := by
  induction n generalizing s with
  | zero => cases hi
  | succ n ih =>
    unfold fillBuffer at hi
    split at hi
    · cases hi
    · split at hi
      · cases hi
      · split at hi
        · next hne hr => cases hi; exact ⟨by omega, hr⟩
        · next hne _ _ => exact ih (loadByte _ s) (by simp; omega) hi

theorem fetch_absent {s : State} (h : s.inPos ≤ s.inLen) {i : Nat} (hi : fetch s = .absent i) :
    i < s.inLen ∧ Memory.read s.inp i = none := by
  unfold fetch at hi
  split at hi
  · cases hi
  · cases hi
  · next j hj => cases hi; exact fillBuffer_absent 2 s h _ hj

/-- Whatever the fetch answers, the buffer stays true to the stream; a code moves `BITPOS` by its width (R126). -/
theorem fetch_ok {s : State} (h : FillOk s) (hc : s.bitCnt.toNat ≤ 7) (h12 : s.codeSize.toNat ≤ 12) :
    (∀ c t, fetch s = .code c t →
      FillOk t ∧ t.bitPos = s.bitPos + s.codeSize.toNat ∧ t.bitCnt.toNat ≤ 7 ∧ SameButBuffer s t) ∧
    (∀ t, fetch s = .ended t → FillOk t ∧ t.bitPos = s.bitPos ∧ t.bitCnt.toNat ≤ 11 ∧
      t.bitCnt.toNat < s.codeSize.toNat ∧ t.inPos = s.inLen ∧ SameButBuffer s t) := by
  obtain ⟨f1, f2⟩ := fillBuffer_ok 2 s h h12
  have ff := fillBuffer_frame 2 s
  have fr := fetch_frame s
  constructor
  · intro c t ht
    have hsame := fr.1 c t ht
    unfold fetch at ht
    split at ht
    · next u hu =>
      cases ht
      obtain ⟨k1, k2, k3, k4⟩ := f1 u hu
      have k5 := k4 (by omega)
      have e1 : u.codeSize = s.codeSize := by rw [ff.1 u hu]
      have hl := k1.buf.loaded
      have hcnt : (dropCode u).bitCnt.toNat = u.bitCnt.toNat - s.codeSize.toNat := by simp [e1]; omega
      have hpos : (dropCode u).bitPos = s.bitPos + s.codeSize.toNat := by
        rw [← k2]; simp only [State.bitPos, hcnt, dropCode_inPos]; omega
      refine ⟨⟨⟨?_, ?_⟩, ?_, k1.within⟩, hpos, by omega, hsame⟩
      · rw [hcnt, dropCode_inPos]; omega
      · intro j hj
        rw [hcnt] at hj
        rw [hpos]
        show u.streamBit _ = _
        rw [show s.bitPos + s.codeSize.toNat + j = u.bitPos + (s.codeSize.toNat + j) by omega, k1.buf.bits _ (by omega)]
        simp [e1]
      · rw [hcnt, dropCode_bitBuf, e1, BitVec.toNat_ushiftRight, Nat.shiftRight_eq_div_pow,
          Nat.div_lt_iff_lt_mul (Nat.two_pow_pos _), ← Nat.pow_add, Nat.sub_add_cancel k5]
        exact k1.small
    · cases ht
    · cases ht
  · intro t ht
    have hsame := fr.2 t ht
    unfold fetch at ht
    split at ht
    · cases ht
    · next u hu =>
      cases ht
      obtain ⟨k1, k2, k3, k4⟩ := f2 _ hu
      exact ⟨k1, k2, by omega, k3, k4, hsame⟩
    · cases ht

end Sys2Proof.Machine
end

