-- ==== Sys2Proof/Laws/PerInstr.lean ====
section
/-! SUPPORT. One family of statements over the instructions as syntax: what the decoder answers is well formed. -/

namespace Sys2Proof.Laws

/-- An instruction that the decoder answers meets the condition of its row of R95, and its code fits the width
(R90); `START` is never read from the stream (R103). -/
def DecodeSound.Statement (i : Instr) : Prop :=
  ∀ (r : CodeRegs) (bits rest : List Bool), decode r bits = .ok (i, rest) → i.wf r = true

/-- What stands behind a decoded instruction: a code that fits the width and has its class. -/
theorem DecodeSound.code_of_decode {r : CodeRegs} {bits rest : List Bool} {i : Instr}
    (h : decode r bits = .ok (i, rest)) : ∃ c : Code, classify r c = .ok i ∧ c.toNat < 2 ^ r.codeSize.toNat := by
  unfold decode at h
  split at h
  · cases h
  · next hlen =>
    split at h
    · next i' hi =>
      cases h
      refine ⟨_, hi, ?_⟩
      have h1 := natOfBits_lt (bits.take r.codeSize.toNat)
      rw [List.length_take, Nat.min_eq_left (by omega)] at h1
      rw [BitVec.toNat_ofNat]
      exact Nat.lt_of_le_of_lt (Nat.mod_le _ _) h1
    · cases h

theorem DecodeSound.clear : DecodeSound.Statement .clear := by
  intro r bits rest h
  obtain ⟨c, h1, h2⟩ := DecodeSound.code_of_decode h
  have h3 : r.clearCode.toNat = c.toNat := Option.some.inj (codeOf_of_classify h1)
  simp [Instr.wf, h3, h2]

theorem DecodeSound.eoi : DecodeSound.Statement .eoi := by
  intro r bits rest h
  obtain ⟨c, h1, h2⟩ := DecodeSound.code_of_decode h
  have h3 : r.eoiCode.toNat = c.toNat := Option.some.inj (codeOf_of_classify h1)
  simp [Instr.wf, h3, h2]

theorem DecodeSound.invalid (code : Code) : DecodeSound.Statement (.invalid code) := by
  intro r bits rest h
  obtain ⟨c, h1, h2⟩ := DecodeSound.code_of_decode h
  unfold classify at h1
  split_ifs at h1 with c1 c2 c3 <;> cases h1
  simp [Instr.wf, Code.fits, h2, c3]

theorem DecodeSound.lit (code : Code) : DecodeSound.Statement (.lit code) := by
  intro r bits rest h
  obtain ⟨c, h1, h2⟩ := DecodeSound.code_of_decode h
  unfold classify at h1
  split_ifs at h1 with c1 c2 c3 c4 <;> cases h1
  simp [Instr.wf, Code.fits, h2, c4]

theorem DecodeSound.entry (code : Code) : DecodeSound.Statement (.entry code) := by
  intro r bits rest h
  obtain ⟨c, h1, h2⟩ := DecodeSound.code_of_decode h
  unfold classify at h1
  split_ifs at h1 with c1 c2 c3 c4 c5 <;> cases h1
  simp [Instr.wf, Code.fits, h2, c5.1, c5.2]

theorem DecodeSound.kwkwk (code : Code) : DecodeSound.Statement (.kwkwk code) := by
  intro r bits rest h
  obtain ⟨c, h1, h2⟩ := DecodeSound.code_of_decode h
  unfold classify at h1
  split_ifs at h1 with c1 c2 c3 c4 c5 c6 <;> cases h1
  simp [Instr.wf, Code.fits, c6.1, c6.2]
  omega

theorem DecodeSound.start (m : Byte) (n : BitVec 32) (len : Nat) : DecodeSound.Statement (.start m n len) := by
  intro r bits rest h
  obtain ⟨c, h1, _⟩ := DecodeSound.code_of_decode h
  exact nomatch codeOf_of_classify h1

end Sys2Proof.Laws
end

