-- ==== Sys2Proof/Tests/Slice0.lean ====
section
/-! SUPPORT. Tests of the model: an ill-formed term for each check, words written out bit by bit, single steps of the
spec's vectors (95_test_vectors.md, 96_test_vectors_data_codes.md), and for each obligation with hypotheses a state and
operands that meet them. -/

namespace Sys2Proof.Machine

/-! ### Well-formedness: each check refuses one term -/

/-- `probeRegs` at another width and another previous code. -/
def regsAt (size : BitVec 4) (prevV : Bool) : CodeRegs := { probeRegs with codeSize := size, prevV := prevV }

theorem test_wf_refuses_wide_clear : Instr.wf (regsAt 2 true) .clear = false := by decide
theorem test_wf_refuses_wide_eoi : Instr.wf (regsAt 2 true) .eoi = false := by decide
theorem test_wf_refuses_wide_invalid : Instr.wf (regsAt 3 true) (.invalid 10) = false := by decide
theorem test_wf_refuses_invalid_at_avail : Instr.wf (regsAt 4 true) (.invalid 9) = false := by decide
theorem test_wf_refuses_wide_lit : Instr.wf (regsAt 1 true) (.lit 3) = false := by decide
theorem test_wf_refuses_lit_at_clear : Instr.wf (regsAt 4 true) (.lit 4) = false := by decide
theorem test_wf_refuses_wide_entry : Instr.wf (regsAt 3 true) (.entry 8) = false := by decide
theorem test_wf_refuses_entry_at_eoi : Instr.wf (regsAt 4 true) (.entry 5) = false := by decide
theorem test_wf_refuses_entry_at_avail : Instr.wf (regsAt 4 true) (.entry 9) = false := by decide
theorem test_wf_refuses_wide_kwkwk : Instr.wf (regsAt 3 true) (.kwkwk 9) = false := by decide
theorem test_wf_refuses_kwkwk_below_avail : Instr.wf (regsAt 4 true) (.kwkwk 8) = false := by decide
theorem test_wf_refuses_kwkwk_without_previous : Instr.wf (regsAt 4 false) (.kwkwk 9) = false := by decide
theorem test_wf_refuses_start_below : Instr.wf probeRegs (.start 1 4 4) = false := by decide
theorem test_wf_refuses_start_above : Instr.wf probeRegs (.start 9 4 4) = false := by decide

/-! ### Decoding: the bits of R71 and R96, first bit read first -/

/-- R96: `CLEAR` at `MINCS` = 3 is 8, at width 4 the bits 0 0 0 1. -/
theorem test_decode_clear : decode (scheduleStart 3) [false, false, false, true] = .ok (.clear, []) := by rfl

/-- V9: `EOI` at `MINCS` = 3 is 9, at width 4 the bits 1 0 0 1. -/
theorem test_decode_eoi : decode (scheduleStart 3) [true, false, false, true, true] = .ok (.eoi, [true]) := by rfl

/-- V4b: 6 at the very start of a stream is `INVALID` (R145). -/
theorem test_decode_invalid : decode (scheduleStart 2) [false, true, true] = .ok (.invalid 6, []) := by rfl

/-- V8: 255 at `MINCS` = 8, width 9. -/
theorem test_decode_lit :
    decode (scheduleStart 8) [true, true, true, true, true, true, true, true, false] = .ok (.lit 255, []) := by rfl

/-- V2 step 7 has `AVAIL` = 10: code 9 is `ENTRY`. -/
theorem test_decode_entry :
    decode { probeRegs with avail := 10 } [true, false, false, true] = .ok (.entry 9, []) := by rfl

/-- V10 step 4: `AVAIL` = 7 at width 3, code 7 is `KWKWK` and not `INVALID`. -/
theorem test_decode_kwkwk :
    decode { scheduleStart 2 with avail := 7, prevV := true } [true, true, true] = .ok (.kwkwk 7, []) := by rfl

/-- `START`'s arguments in the layout of log 17: 2, then 13, then 3. -/
theorem test_decode_start : decodeTableWord 72 (2 + 13 * 2 ^ 8 + 3 * 2 ^ 40) = some (.start 2 13 3) := by decide

/-- R127: fewer bits than the width are no code. -/
theorem test_decode_short : decode (scheduleStart 2) [false, true] = .error .tooFewBits := by rfl

/-- Each class by its value under the registers of log 17 (R95). -/
theorem test_decode_table_words :
    [4, 5, 10, 3, 6, 9, 16].map (decodeTableWord 8) =
      [some .clear, some .eoi, some (.invalid 10), some (.lit 3), some (.entry 6), some (.kwkwk 9), none] := by decide

/-! ### Single steps of the spec's vectors -/

/-- A state of a run: `MINCS`, `PIXCNT` and `IN`, then the registers of one row of a trace, the table entries that row
stands on and the symbols emitted so far. -/
def rowState (m : Nat) (n : BitVec 32) (inp : List Byte) (size avail : Nat) (prevV : Bool) (prev first buf cnt pos : Nat)
    (entries : List Entry) (emitted : List Sym) : State :=
  { State.reset with
    mincs := BitVec.ofNat 4 m, clearCode := BitVec.ofNat 9 (2 ^ m), eoiCode := BitVec.ofNat 9 (2 ^ m + 1), pixCnt := n
    inLen := inp.length, inp := Memory.cells 0 inp, codeSize := BitVec.ofNat 4 size
    codeMask := BitVec.ofNat 12 (2 ^ size - 1), avail := BitVec.ofNat 13 avail, prevV := prevV
    prev := BitVec.ofNat 12 prev, firstSym := BitVec.ofNat 8 first, bitBuf := BitVec.ofNat 19 buf
    bitCnt := BitVec.ofNat 5 cnt, inPos := pos, outPos := BitVec.ofNat 32 emitted.length, phase := .run
    tbl := Memory.cells 0 (seeds (2 ^ m)) ++ Memory.cells (2 ^ m + 2) entries, out := Memory.cells 0 emitted }

/-- A row of a trace: `CODESIZE`, `CODEMASK`, `AVAIL`, `PREVV`, `PREV`, `FIRST`, `BITBUF`, `BITCNT`, `INPOS`, `BITPOS`. -/
def State.row (s : State) : List Nat :=
  [s.codeSize.toNat, s.codeMask.toNat, s.avail.toNat, s.prevV.toNat, s.prev.toNat, s.firstSym.toNat, s.bitBuf.toNat,
    s.bitCnt.toNat, s.inPos, s.bitPos]

/-- What a step left, looked at through `f`; `none` for a fault or a refusal. -/
def after {α : Type} (f : State → α) : Host.Outcome State Fault Refusal → Option α
  | .next s => some (f s)
  | .fault _ => none
  | .refused _ => none

/-- The symbols in `OUT` in order, and how the run stands. -/
def State.result (s : State) : List Sym × Phase × Cause := (s.out.map (fun c => c.2), s.phase, s.cause)

/-- V6B step 6: `CLEAR` at width 4, `AVAIL` 8 back to 6; `PREV` and `FIRST` stay. -/
theorem test_clear_v6b_step6 :
    after State.row (step (rowState 2 8 [0x64, 0x6C, 0x22, 0xE5, 0x02] 4 8 true 6 1 0 1 2 [⟨1, 1⟩, ⟨6, 1⟩] [1, 1, 1, 1, 1])) =
      some [3, 7, 6, 0, 6, 1, 4, 5, 3, 19] := by decide

/-- V9 step 4: `EOI` with two positions left to fill. -/
theorem test_eoi_v9_step4 :
    after (fun s => (s.row, s.result, s.outPos)) (step (rowState 3 5 [0x78, 0x9A] 4 11 true 10 7 9 4 2 [⟨7, 7⟩] [7, 7, 7])) =
      some ([4, 15, 11, 1, 10, 7, 0, 0, 2, 16], ([7, 7, 7, 0, 0], .done, .eoi), 3) := by decide

/-- V3 step 3: code 7 above `AVAIL` = 6. -/
theorem test_invalid_v3_step3 :
    after (fun s => (s.row, s.result, s.malformed, s.short)) (step (rowState 2 6 [0xCC, 0x51] 3 6 true 1 1 3 2 1 [] [1])) =
      some ([3, 7, 6, 1, 1, 1, 40, 7, 2, 9], ([1, 0, 0, 0, 0, 0], .done, .invalid), true, true) := by decide

/-- V4 step 2: code 6 = `AVAIL` with the previous code empty. -/
theorem test_invalid_v4_step2 :
    after (fun s => (s.row, s.result)) (step (rowState 2 4 [0x34, 0x0A] 3 6 false 0 0 6 5 1 [] [])) =
      some ([3, 7, 6, 0, 0, 0, 0, 2, 1, 6], ([0, 0, 0, 0], .done, .invalid)) := by decide

/-- S1 step 2: the first form of `LIT`, no entry added. -/
theorem test_lit_s1_step2 :
    after (fun s => (s.row, Memory.read s.tbl 6, s.result)) (step (rowState 2 2 [0x44, 0x0A] 3 6 false 0 0 8 5 1 [] [])) =
      some ([3, 7, 6, 1, 0, 0, 1, 2, 1, 6], none, ([0], .run, .none)) := by decide

/-- V14 step 8: the add brings `AVAIL` to 16, the width grows to 5. -/
theorem test_lit_v14_step8 :
    after (fun s => (s.row, Memory.read s.tbl 15))
      (step (rowState 3 9 [0x08, 0x21, 0x43, 0x65, 0x07, 0x24] 4 15 true 5 5 6 4 4
        [⟨0, 1⟩, ⟨1, 2⟩, ⟨2, 3⟩, ⟨3, 4⟩, ⟨4, 5⟩] [0, 1, 2, 3, 4, 5])) =
      some ([5, 31, 16, 1, 6, 6, 0, 0, 4, 32], some ⟨5, 6⟩) := by decide

/-- V2 step 7: code 9 is the entry of the step before; its string has four symbols. -/
theorem test_entry_v2_step7 :
    after (fun s => (s.row, Memory.read s.tbl 10, s.result))
      (step (rowState 2 13 [0x8C, 0x8D, 0x92, 0x05] 4 10 true 2 2 9 4 3 [⟨1, 1⟩, ⟨6, 1⟩, ⟨6, 1⟩, ⟨8, 2⟩]
        [1, 1, 1, 1, 1, 1, 1, 1, 2])) =
      some ([4, 15, 11, 1, 9, 1, 0, 0, 3, 24], some ⟨2, 1⟩, ([1, 1, 1, 1, 1, 1, 1, 1, 2, 1, 1, 1, 2], .run, .none)) := by
  decide

/-- V2b step 7: the same with one position left: one symbol is written, the entry is added all the same. -/
theorem test_entry_v2b_step7 :
    after (fun s => (s.row, Memory.read s.tbl 10, s.result))
      (step (rowState 2 10 [0x8C, 0x8D, 0x92, 0x05] 4 10 true 2 2 9 4 3 [⟨1, 1⟩, ⟨6, 1⟩, ⟨6, 1⟩, ⟨8, 2⟩]
        [1, 1, 1, 1, 1, 1, 1, 1, 2])) =
      some ([4, 15, 11, 1, 9, 1, 0, 0, 3, 24], some ⟨2, 1⟩, ([1, 1, 1, 1, 1, 1, 1, 1, 2, 1], .run, .none)) := by decide

/-- V2 step 3: `KWKWK` right after the first literal. -/
theorem test_kwkwk_v2_step3 :
    after (fun s => (s.row, Memory.read s.tbl 6, s.result))
      (step (rowState 2 13 [0x8C, 0x8D, 0x92, 0x05] 3 6 true 1 1 2 2 1 [] [1])) =
      some ([3, 7, 7, 1, 6, 1, 70, 7, 2, 9], some ⟨1, 1⟩, ([1, 1, 1], .run, .none)) := by decide

/-- V10 step 4: `KWKWK` with the largest code of the width, and growth in the same step. -/
theorem test_kwkwk_v10_step4 :
    after (fun s => (s.row, Memory.read s.tbl 7, s.result))
      (step (rowState 2 6 [0x8C, 0x5F] 3 7 true 6 1 47 7 2 [⟨1, 1⟩] [1, 1, 1])) =
      some ([4, 15, 8, 1, 7, 1, 5, 4, 2, 12], some ⟨6, 1⟩, ([1, 1, 1, 1, 1, 1], .run, .none)) := by decide

/-- S1 step 4: the output is full, nothing is read, though a whole code is still buffered. -/
theorem test_complete_s1_step4 :
    after (fun s => (s.row, s.result, s.short)) (step (rowState 2 2 [0x44, 0x0A] 3 7 true 1 1 5 7 2 [⟨0, 1⟩] [0, 1])) =
      some ([3, 7, 7, 1, 1, 1, 5, 7, 2, 9], ([0, 1], .done, .complete), false) := by decide

/-- V7b: empty input. -/
theorem test_exhausted_v7b :
    after (fun s => (s.result, s.malformed)) (step (rowState 2 4 [] 3 6 false 0 0 0 0 0 [] [])) =
      some (([0, 0, 0, 0], .done, .exhausted), true) := by decide

/-- The reset state with five bytes of `IN` supplied. -/
def fiveBytes : State := { State.reset with inp := Memory.cells 0 [1, 2, 3, 4, 5] }

/-- 2.1 START, the row of `m` = 8: the launch values. -/
theorem test_start_m8 :
    after (fun s => (s.row, s.mincs, s.clearCode, s.eoiCode)) (exec (.start 8 7 5) fiveBytes) =
      some ([9, 511, 258, 0, 0, 0, 0, 0, 0, 0], 8, 256, 257) := by rfl

/-- 2.1 START, the row of `m` = 2: the seeded entries, and no other. -/
theorem test_start_m2_seeds :
    after (fun s => s.tbl) (exec (.start 2 7 5) fiveBytes) =
      some [(0, ⟨0, 0⟩), (1, ⟨0, 1⟩), (2, ⟨0, 2⟩), (3, ⟨0, 3⟩)] := by decide

/-- 2.1 START: `START(255, n, len)` is refused. -/
theorem test_start_255 : exec (.start 255 7 5) State.reset = .refused (.reservedMinCodeSize 255) := by rfl

/-- R231, U9: an `IN_LEN` one above and one below the number of bytes supplied is refused. -/
theorem test_start_wrong_length :
    exec (.start 8 7 6) fiveBytes = .refused (.inputLengthMismatch 6 5) ∧
      exec (.start 8 7 4) fiveBytes = .refused (.inputLengthMismatch 4 5) := ⟨by rfl, by rfl⟩

/-- A shorter write leaves nothing of the five bytes (log 25). -/
theorem test_shorter_write :
    after (fun s => (s.inp, s.suppliedBytes)) (step { fiveBytes with host := [.writeIn [9, 8]] }) =
      some ([(0, 9), (1, 8)], 2) := by rfl

/-- In a state that no run reaches, a byte below `INLEN` that `IN` does not hold is refused by name (log 10). -/
theorem test_missing_input :
    step { rowState 2 4 [] 3 6 false 0 0 0 0 0 [] [] with inLen := 1 } = .refused (.inputNotSupplied 0) := by rfl

/-- A placed code is what the next step runs: 6 is `ENTRY` there and emits the string 1 1 of V2's entry 6. -/
theorem test_fetch_word_entry :
    after (fun s => (s.outPos, s.prev, Memory.read s.tbl 9)) (step (State.reset.withFetchWord 8 6)) =
      some (10, 6, some ⟨8, 1⟩) := by decide

/-- A placed `START` is what the next step runs. -/
theorem test_fetch_word_start :
    after (fun s => (s.phase, s.mincs, s.pixCnt, s.inLen)) (step (State.reset.withFetchWord 72 (2 + 13 * 2 ^ 8 + 3 * 2 ^ 40))) =
      some (.run, 2, 13, 3) := by rfl

/-- R101, R69: the listing of S1 assembles to 44 0A. -/
theorem test_assemble_s1 : assemble 2 [4, 0, 1, 5] = [0x44, 0x0A] := by decide

/-- V2's listing, with growth from width 3 to 4, assembles to 8C 8D 92 05. -/
theorem test_assemble_v2 : assemble 2 [4, 1, 6, 6, 8, 2, 9, 5] = [0x8C, 0x8D, 0x92, 0x05] := by decide

/-! ### States that meet the invariant, for the witnesses -/

/-- S1 right after `START`; `PREV` and `FIRST` are hidden. -/
def fresh (prev first : Nat) : State := rowState 2 4 [0x44, 0x0A] 3 6 false prev first 0 0 0 [] []

/-- The same run over, by `EOI`. -/
def finished (prev first : Nat) : State :=
  { fresh prev first with phase := .done, cause := .eoi, out := Memory.cells 0 [0, 0, 0, 0] }

/-- V2 after step 5: the next code is 2 at width 4, `AVAIL` = 9. -/
def midRun : State :=
  rowState 2 13 [0x8C, 0x8D, 0x92, 0x05] 4 9 true 8 1 0 0 2 [⟨1, 1⟩, ⟨6, 1⟩, ⟨6, 1⟩] [1, 1, 1, 1, 1, 1, 1, 1]

/-- V10 after step 3: `AVAIL` = 7 = `CODEMASK`, seven bits buffered. -/
def narrow : State := rowState 2 6 [0x8C, 0x5F] 3 7 true 6 1 47 7 2 [⟨1, 1⟩] [1, 1, 1]

/-- A full table: 4090 entries 0 0 above the seeds, `AVAIL` = 4096, the width 12. -/
def fullTable : State :=
  { rowState 2 4 [0x44, 0x0A] 12 4096 true 0 0 0 0 0 [] [] with
    tbl := Memory.cells 0 (seeds 4) ++ Memory.cells 6 (List.replicate 4090 ⟨0, 0⟩) }

theorem fresh_launched (prev first : Nat) : Launched (fresh prev first) where
  mincs_low := Nat.le_refl 2
  mincs_high := show 2 ≤ 8 by decide
  clear_eq := rfl
  eoi_eq := rfl
  size_low := Nat.le_refl 3
  size_high := show 3 ≤ 12 by decide
  mask_eq := rfl
  avail_low := Nat.le_refl 6
  avail_high := show 6 ≤ 4096 by decide
  avail_width := show 4 ≤ 6 by decide
  avail_fits := .inl (show 6 < 8 by decide)
  empty_avail := fun _ => rfl
  buffer_small := show 0 < 1 by decide
  input_within := show 0 ≤ 2 by decide
  output_within := show 0 ≤ 4 by decide
  prev_live := fun h => nomatch h
  prev_string := fun h => nomatch h
  seeded := show ∀ c < 4, Memory.read (Memory.cells 0 (seeds 4)) c = some { pfx := 0, sfx := BitVec.ofNat 8 c } by decide
  entries := fun e h1 h2 => absurd (Nat.lt_of_le_of_lt h1 h2) (Nat.lt_irrefl 6)

theorem fresh_inv (prev first : Nat) : Inv (fresh prev first) where
  tbl_wf := show Memory.wf (Memory.cells 0 (seeds 4)) from Memory.cells_wf _ _
  inp_wf := Memory.cells_wf _ _
  inp_seq := ⟨_, rfl⟩
  out_wf := List.Pairwise.nil
  tbl_range := fun e he => Memory.read_eq_none (m := Memory.cells 0 (seeds 4)) (b := 4096) (by decide) he
  stack_empty := rfl
  when_idle := fun h => nomatch h
  when_launched := fun _ => fresh_launched prev first
  when_running := fun _ =>
    { input_whole := rfl
      cause_none := rfl
      count_small := show 0 ≤ 7 by decide
      buffer := ⟨show 0 ≤ 0 by decide, fun j hj => absurd hj (Nat.not_lt_zero j)⟩
      written := Memory.isSome_read_cells ([] : List Sym) }
  when_stopped := fun h => nomatch h

theorem finished_inv (prev first : Nat) : Inv (finished prev first) where
  tbl_wf := (fresh_inv prev first).tbl_wf
  inp_wf := (fresh_inv prev first).inp_wf
  inp_seq := ⟨_, rfl⟩
  out_wf := Memory.cells_wf _ _
  tbl_range := (fresh_inv prev first).tbl_range
  stack_empty := rfl
  when_idle := fun h => nomatch h
  when_launched := fun _ =>
    let h := fresh_launched prev first
    ⟨h.mincs_low, h.mincs_high, h.clear_eq, h.eoi_eq, h.size_low, h.size_high, h.mask_eq, h.avail_low, h.avail_high,
      h.avail_width, h.avail_fits, h.empty_avail, h.buffer_small, h.input_within, h.output_within, h.prev_live,
      h.prev_string, h.seeded, h.entries⟩
  when_running := fun h => nomatch h
  when_stopped := fun _ =>
    { cause_some := show Cause.eoi ≠ Cause.none by decide
      cause_complete := ⟨fun h => (nomatch h), fun h => absurd h (show ¬ (0 : Nat) = 4 by decide)⟩
      count_small := show 0 ≤ 11 by decide
      written := Memory.isSome_read_cells ([0, 0, 0, 0] : List Sym)
      tail_zero := fun i _ h => (show ∀ i < 4, Memory.read (Memory.cells 0 ([0, 0, 0, 0] : List Sym)) i = some 0 by decide) i h }

theorem midRun_launched : Launched midRun where
  mincs_low := by decide
  mincs_high := by decide
  clear_eq := by decide
  eoi_eq := by decide
  size_low := by decide
  size_high := by decide
  mask_eq := by decide
  avail_low := by decide
  avail_high := by decide
  avail_width := by decide
  avail_fits := by decide
  empty_avail := by decide
  buffer_small := by decide
  input_within := by decide
  output_within := by decide
  prev_live := by decide
  prev_string := fun _ =>
    ⟨[1, 1], .link (l := [1, 1]) (e := ⟨6, 1⟩) (show 6 ≤ 8 by decide) rfl
      (.link (l := [1]) (e := ⟨1, 1⟩) (show 6 ≤ 6 by decide) rfl (.base (show 1 < 4 by decide)))⟩
  seeded := show ∀ c < 4, Memory.read midRun.tbl c = some { pfx := 0, sfx := BitVec.ofNat 8 c } by decide
  entries := fun e h1 h2 => by
    replace h1 : 6 ≤ e := h1
    replace h2 : e < 9 := h2
    interval_cases e
    · exact ⟨⟨1, 1⟩, by decide⟩
    · exact ⟨⟨6, 1⟩, by decide⟩
    · exact ⟨⟨6, 1⟩, by decide⟩

theorem midRun_inv : Inv midRun where
  tbl_wf := by decide
  inp_wf := by decide
  inp_seq := ⟨_, rfl⟩
  out_wf := by decide
  tbl_range := fun e he => Memory.read_eq_none (b := 4096) (by decide) he
  stack_empty := rfl
  when_idle := fun h => nomatch h
  when_launched := fun _ => midRun_launched
  when_running := fun _ =>
    { input_whole := rfl
      cause_none := rfl
      count_small := by decide
      buffer := ⟨by decide, by decide⟩
      written := Memory.isSome_read_cells ([1, 1, 1, 1, 1, 1, 1, 1] : List Sym) }
  when_stopped := fun h => nomatch h

theorem narrow_launched : Launched narrow where
  mincs_low := by decide
  mincs_high := by decide
  clear_eq := by decide
  eoi_eq := by decide
  size_low := by decide
  size_high := by decide
  mask_eq := by decide
  avail_low := by decide
  avail_high := by decide
  avail_width := by decide
  avail_fits := by decide
  empty_avail := by decide
  buffer_small := by decide
  input_within := by decide
  output_within := by decide
  prev_live := by decide
  prev_string := fun _ =>
    ⟨[1], .link (l := [1]) (e := ⟨1, 1⟩) (show 6 ≤ 6 by decide) rfl (.base (show 1 < 4 by decide))⟩
  seeded := show ∀ c < 4, Memory.read narrow.tbl c = some { pfx := 0, sfx := BitVec.ofNat 8 c } by decide
  entries := fun e h1 h2 => by
    replace h1 : 6 ≤ e := h1
    replace h2 : e < 7 := h2
    interval_cases e
    exact ⟨⟨1, 1⟩, by decide⟩

theorem narrow_inv : Inv narrow where
  tbl_wf := by decide
  inp_wf := by decide
  inp_seq := ⟨_, rfl⟩
  out_wf := by decide
  tbl_range := fun e he => Memory.read_eq_none (b := 4096) (by decide) he
  stack_empty := rfl
  when_idle := fun h => nomatch h
  when_launched := fun _ => narrow_launched
  when_running := fun _ =>
    { input_whole := rfl
      cause_none := rfl
      count_small := by decide
      buffer := ⟨by decide, by decide⟩
      written := Memory.isSome_read_cells ([1, 1, 1] : List Sym) }
  when_stopped := fun h => nomatch h

theorem fullTable_read (e : Nat) (h1 : 6 ≤ e) (h2 : e < 4096) : Memory.read fullTable.tbl e = some ⟨0, 0⟩ := by
  show Memory.read (Memory.cells 0 (seeds 4) ++ Memory.cells 6 (List.replicate 4090 ⟨0, 0⟩)) e = _
  rw [Memory.read_append, Memory.read_eq_none (m := Memory.cells 0 (seeds 4)) (b := 4) (by decide) (by omega),
    Memory.read_cells, if_pos h1, List.getElem?_replicate, if_pos (by omega)]
  rfl

theorem fullTable_seed (c : Nat) (h : c < 4) :
    Memory.read fullTable.tbl c = some { pfx := 0, sfx := BitVec.ofNat 8 c } := by
  show Memory.read (Memory.cells 0 (seeds 4) ++ Memory.cells 6 (List.replicate 4090 ⟨0, 0⟩)) c = _
  rw [Memory.read_append, (show ∀ c < 4, Memory.read (Memory.cells 0 (seeds 4)) c =
    some { pfx := 0, sfx := BitVec.ofNat 8 c } by decide) c h]
  rfl

theorem fullTable_launched : Launched fullTable where
  mincs_low := by decide
  mincs_high := by decide
  clear_eq := rfl
  eoi_eq := rfl
  size_low := show 3 ≤ 12 by decide
  size_high := show 12 ≤ 12 by decide
  mask_eq := rfl
  avail_low := show 6 ≤ 4096 by decide
  avail_high := Nat.le_refl 4096
  avail_width := show 2048 ≤ 4096 by decide
  avail_fits := .inr ⟨rfl, rfl⟩
  empty_avail := fun h => nomatch h
  buffer_small := show 0 < 1 by decide
  input_within := show 0 ≤ 2 by decide
  output_within := show 0 ≤ 4 by decide
  prev_live := fun _ => ⟨show 0 < 4096 by decide, show 0 ≠ 4 by decide, show 0 ≠ 5 by decide⟩
  prev_string := fun _ => ⟨[], .base (show 0 < 4 by decide)⟩
  seeded := fullTable_seed
  entries := fun e h1 h2 =>
    ⟨⟨0, 0⟩, fullTable_read e h1 h2, Nat.lt_of_lt_of_le (show 0 < 6 by decide) h1, show 0 ≠ 4 by decide,
      show 0 ≠ 5 by decide, show 0 < 4 by decide⟩

/-! ### For each obligation with hypotheses, a state and operands that meet them together -/

theorem probeRegs_legal : probeRegs.Legal := by decide

/-- ClassOfEveryCode: legal registers, and a code of each class at the edges of its range (3, 4, 5, 6, 8, 9, 10), with
and without a previous code. -/
theorem witness_ClassOfEveryCode :
    probeRegs.Legal ∧ { probeRegs with avail := 6, prevV := false }.Legal ∧
      [3, 4, 5, 6, 8, 9, 10].map (fun c => classify probeRegs c) =
        [.ok (.lit 3), .ok .clear, .ok .eoi, .ok (.entry 6), .ok (.entry 8), .ok (.kwkwk 9), .ok (.invalid 10)] ∧
      classify { probeRegs with avail := 6, prevV := false } 6 = .ok (.invalid 6) := ⟨by decide, by decide, by rfl, by rfl⟩

/-- OrderOfTestsAgrees: each branch of the pseudocode on legal registers. -/
theorem witness_OrderOfTestsAgrees :
    probeRegs.Legal ∧ [3, 4, 5, 6, 8, 9, 10].map (orderedTests probeRegs) =
      [.lit 3, .clear, .eoi, .entry 6, .entry 8, .kwkwk 9, .invalid 10] ∧
      orderedTests { probeRegs with avail := 6, prevV := false } 6 = .invalid 6 ∧
      orderedTests { probeRegs with avail := 6, prevV := false } 3 = .lit 3 := by decide

/-- ClassesAStateCanMeet: no previous code; `AVAIL` = `2^CODESIZE - 1` with the largest code; the table full; a previous code
and room, with an invalid code. -/
theorem witness_ClassesAStateCanMeet :
    (Launched (fresh 0 0) ∧ (fresh 0 0).prevV = false ∧ (7 : Code).toNat < 2 ^ (fresh 0 0).codeSize.toNat) ∧
    (Launched narrow ∧ narrow.prevV = true ∧ narrow.avail.toNat = 2 ^ narrow.codeSize.toNat - 1 ∧
      classify narrow.codeRegs 7 = .ok (.kwkwk 7)) ∧
    (Launched fullTable ∧ fullTable.prevV = true ∧ fullTable.avail.toNat = 4096 ∧
      (4095 : Code).toNat < 2 ^ fullTable.codeSize.toNat) ∧
    (Launched midRun ∧ midRun.prevV = true ∧ classify midRun.codeRegs 15 = .ok (.invalid 15)) :=
  ⟨⟨fresh_launched 0 0, rfl, show 7 < 8 by decide⟩, ⟨narrow_launched, rfl, rfl, rfl⟩,
    ⟨fullTable_launched, rfl, rfl, show 4095 < 4096 by decide⟩, ⟨midRun_launched, rfl, rfl⟩⟩

/-- DecodeOfEncode: one well-formed instruction of each class. -/
theorem witness_DecodeOfEncode :
    probeRegs.Legal ∧ ∀ i ∈ [Instr.clear, .eoi, .invalid 15, .lit 3, .entry 6, .kwkwk 9],
      i.wf probeRegs = true ∧ codeOf probeRegs i ≠ none := by decide

/-- EncodeOfDecode: a code and one bit after it. -/
theorem witness_EncodeOfDecode :
    probeRegs.codeSize.toNat ≤ 12 ∧ decode probeRegs [false, true, true, false, true] = .ok (.entry 6, [true]) :=
  ⟨by decide, by rfl⟩

/-- FetchReadsTheStream: seven bits buffered, and an empty buffer with a code that takes the whole input. -/
theorem witness_FetchReadsTheStream :
    (BufferOk narrow ∧ narrow.bitBuf.toNat < 2 ^ narrow.bitCnt.toNat ∧ narrow.bitCnt.toNat ≤ 7 ∧
      narrow.codeSize.toNat ≤ 12 ∧ narrow.codeMask.toNat = 2 ^ narrow.codeSize.toNat - 1 ∧ narrow.inPos ≤ narrow.inLen ∧
      Supplied narrow ∧ narrow.bitPos + narrow.codeSize.toNat ≤ 8 * narrow.inLen) ∧
    (BufferOk (rowState 3 4 [0x89] 4 10 false 0 0 8 4 1 [] []) ∧
      (rowState 3 4 [0x89] 4 10 false 0 0 8 4 1 [] []).bitPos + 4 = 8 * 1) :=
  ⟨⟨(narrow_inv.when_running rfl).buffer, by decide⟩, ⟨⟨by decide, by decide⟩, by decide⟩⟩

/-- StepRunsTheFetchedCode: the next code of `midRun` is the literal 2. -/
theorem witness_StepRunsTheFetchedCode :
    midRun.host = [] ∧ midRun.phase = .run ∧ midRun.outPos ≠ midRun.pixCnt ∧
      ∃ s', fetch midRun = .code 2 s' ∧ classify s'.codeRegs 2 = .ok (.lit 2) :=
  ⟨rfl, rfl, by decide, _, rfl, rfl⟩

/-- StreamInstructionIsRun: the eight bits of the byte 92 begin with the literal 2. -/
theorem witness_StreamInstructionIsRun :
    Inv midRun ∧ midRun.phase = .run ∧ midRun.host = [] ∧ midRun.outPos ≠ midRun.pixCnt ∧
      (bitsOfNat 8 0x92).length ≤ 8 * midRun.inLen - midRun.bitPos ∧ StreamFrom midRun (bitsOfNat 8 0x92) ∧
      decode midRun.codeRegs (bitsOfNat 8 0x92) = .ok (.lit 2, [true, false, false, true]) :=
  ⟨midRun_inv, rfl, rfl, by decide, by decide, by decide, by rfl⟩

/-- TurnsOfHostAndBlock: an idle block; a host that waits while a run goes on; a host that starts a run. -/
theorem witness_TurnsOfHostAndBlock :
    (State.reset.host = [] ∧ State.reset.phase ≠ .run) ∧
    (∃ u, { midRun with host := [.wait] }.host = .wait :: [] ∧ step { midRun with host := [] } = .next u) ∧
    { State.reset with host := [.start 2 4 2] }.host = .start 2 4 2 :: [] :=
  ⟨⟨rfl, by decide⟩, ⟨_, rfl, rfl⟩, rfl⟩

/-- OutputFullStops: S1 before step 4. -/
theorem witness_OutputFullStops :
    let s := rowState 2 2 [0x44, 0x0A] 3 7 true 1 1 5 7 2 [⟨0, 1⟩] [0, 1]
    s.host = [] ∧ s.phase = .run ∧ s.outPos = s.pixCnt := by decide

/-- InputEndStops: vector F9, three bits buffered, one byte left, a width of 12; and no input at all. -/
theorem witness_InputEndStops :
    (let s := rowState 2 4 [0xFF] 12 2048 true 0 0 5 3 0 [] []
     s.host = [] ∧ s.phase = .run ∧ s.outPos ≠ s.pixCnt ∧ s.inPos ≤ s.inLen ∧ Supplied s ∧
      s.bitCnt.toNat + 8 * (s.inLen - s.inPos) < s.codeSize.toNat) ∧
    (let s := rowState 2 4 [] 3 6 false 0 0 0 0 0 [] []
     s.host = [] ∧ s.phase = .run ∧ s.outPos ≠ s.pixCnt ∧ s.inPos ≤ s.inLen ∧ Supplied s ∧
      s.bitCnt.toNat + 8 * (s.inLen - s.inPos) < s.codeSize.toNat) := by decide

/-- ClearResetsTheDictionary: the greatest `MINCS`. -/
theorem witness_ClearResetsTheDictionary : { midRun with mincs := 8 }.mincs.toNat ≤ 8 := by decide

/-- RedundantClearChangesNothing: right after `START`. -/
theorem witness_RedundantClearChangesNothing :
    Inv (fresh 3 2) ∧ (fresh 3 2).phase = .run ∧ (fresh 3 2).prevV = false := ⟨fresh_inv 3 2, rfl, rfl⟩

/-- LitEmitsItsSymbol: the stack empty. -/
theorem witness_LitEmitsItsSymbol : midRun.stk = [] := by decide

/-- EntryEmitsItsString: the string of entry 8 of V2, three symbols. -/
theorem witness_EntryEmitsItsString :
    midRun.stk = [] ∧ Str midRun.clearCode.toNat midRun.tbl 8 [1, 1, 1] ∧ [1, 1, 1].length ≤ 4096 :=
  ⟨rfl, .link (l := [1, 1]) (e := ⟨6, 1⟩) (show 6 ≤ 8 by decide) rfl
    (.link (l := [1]) (e := ⟨1, 1⟩) (show 6 ≤ 6 by decide) rfl (.base (show 1 < 4 by decide))), by decide⟩

/-- KwkwkRepeatsThePrevious: the previous code of `narrow` is entry 6, two symbols. -/
theorem witness_KwkwkRepeatsThePrevious :
    narrow.stk = [] ∧ Str narrow.clearCode.toNat narrow.tbl narrow.prev [1, 1] ∧ [1, 1].length < 4096 :=
  ⟨rfl, .link (l := [1]) (e := ⟨1, 1⟩) (show 6 ≤ 6 by decide) rfl (.base (show 1 < 4 by decide)), by decide⟩

/-- KwkwkNamesWhatItEmits: code 7 = `AVAIL`, the largest code of the width. -/
theorem witness_KwkwkNamesWhatItEmits :
    Inv narrow ∧ narrow.phase = .run ∧ narrow.prevV = true ∧ (7 : Code).toNat = narrow.avail.toNat :=
  ⟨narrow_inv, rfl, rfl, rfl⟩

/-- StringsAreDefinedAndShort: the last base code, the first entry and the last entry of a full table. -/
theorem witness_StringsAreDefinedAndShort :
    Launched fullTable ∧ fullTable.liveCode (3 : Code).toNat ∧ fullTable.liveCode (6 : Code).toNat ∧
      fullTable.liveCode (4095 : Code).toNat :=
  ⟨fullTable_launched, ⟨show 3 < 4096 by decide, show 3 ≠ 4 by decide, show 3 ≠ 5 by decide⟩,
    ⟨show 6 < 4096 by decide, show 6 ≠ 4 by decide, show 6 ≠ 5 by decide⟩,
    ⟨show 4095 < 4096 by decide, show 4095 ≠ 4 by decide, show 4095 ≠ 5 by decide⟩⟩

/-- GrowthTestMeansPowerOfTwo: a state where the next add grows the width, and one where it does not. -/
theorem witness_GrowthTestMeansPowerOfTwo :
    (Launched narrow ∧ narrow.avail.toNat < 4096 ∧ narrow.avail.toNat + 1 = 2 ^ narrow.codeSize.toNat) ∧
    (Launched midRun ∧ midRun.avail.toNat < 4096 ∧ midRun.avail.toNat + 1 ≠ 2 ^ midRun.codeSize.toNat) :=
  ⟨⟨narrow_launched, by decide, by decide⟩, ⟨midRun_launched, by decide, by decide⟩⟩

/-- StartLaunches: both ends of the range, from `IDLE` with no input and from `DONE` with two bytes. -/
theorem witness_StartLaunches :
    (State.reset.phase ≠ .run ∧ 2 ≤ (2 : Byte).toNat ∧ (2 : Byte).toNat ≤ 8 ∧ State.reset.suppliedBytes = 0) ∧
      ((finished 0 0).phase ≠ .run ∧ 2 ≤ (8 : Byte).toNat ∧ (8 : Byte).toNat ≤ 8 ∧
        (finished 0 0).suppliedBytes = 2) := by decide

/-- WrongInputLengthIsRefused: one more and one less than the five bytes supplied. -/
theorem witness_WrongInputLengthIsRefused :
    fiveBytes.phase ≠ .run ∧ 2 ≤ (2 : Byte).toNat ∧ (2 : Byte).toNat ≤ 8 ∧ fiveBytes.suppliedBytes ≠ 6 ∧
      fiveBytes.suppliedBytes ≠ 4 := by decide

/-- ReservedStartIsRefused: the values next to the range. -/
theorem witness_ReservedStartIsRefused :
    State.reset.phase ≠ .run ∧ ((1 : Byte).toNat < 2 ∨ 8 < (1 : Byte).toNat) ∧
      ((9 : Byte).toNat < 2 ∨ 8 < (9 : Byte).toNat) := by decide

/-- StartInRunIsIgnored: a run. -/
theorem witness_StartInRunIsIgnored : midRun.phase = .run := by decide

/-- ResetAbandonsTheRun: a reset in a run. -/
theorem witness_ResetAbandonsTheRun :
    { midRun with host := [.reset, .wait] }.host = .reset :: [.wait] ∧ midRun.phase = .run := by decide

/-- HostWritesInput: both clauses. -/
theorem witness_HostWritesInput :
    ({ midRun with host := [.writeIn [1]] }.host = .writeIn [1] :: [] ∧ midRun.phase = .run) ∧
      ({ State.reset with host := [.writeIn [1]] }.host = .writeIn [1] :: [] ∧ State.reset.phase ≠ .run) := by decide

/-- StepKeepsTheInvariant, RunNeverFaults, OutputIsWrittenOnceInOrder, ProgramCounterMovesByTheWidth: a run whose
next step is a literal. -/
theorem witness_StepKeepsTheInvariant :
    Inv midRun ∧ midRun.phase = .run ∧ midRun.host = [] ∧
      after (fun t => t.outPos) (step midRun) = some 9 := ⟨midRun_inv, rfl, rfl, by decide⟩

/-- RunHasItsWholeInput: a run with two bytes of `IN`. -/
theorem witness_RunHasItsWholeInput : Inv (fresh 0 0) ∧ (fresh 0 0).phase = .run ∧ (fresh 0 0).inLen = 2 :=
  ⟨fresh_inv 0 0, rfl, rfl⟩

/-- RunNeverFaults: as above, and a run at its first step. -/
theorem witness_RunNeverFaults :
    (Inv midRun ∧ midRun.phase = .run ∧ midRun.host = []) ∧
      (Inv (fresh 0 0) ∧ (fresh 0 0).phase = .run ∧ (fresh 0 0).host = []) :=
  ⟨⟨midRun_inv, rfl, rfl⟩, ⟨fresh_inv 0 0, rfl, rfl⟩⟩

/-- EveryRunEnds: a run at its first step. -/
theorem witness_EveryRunEnds :
    Inv (fresh 0 0) ∧ (fresh 0 0).phase = .run ∧ (fresh 0 0).host = [] := ⟨fresh_inv 0 0, rfl, rfl⟩

/-- V13's byte at the first step: the next code is `EOI`. -/
def endsByEoi : State := { fresh 0 0 with inp := Memory.cells 0 [0x05], inLen := 1 }

theorem endsByEoi_inv : Inv endsByEoi where
  tbl_wf := (fresh_inv 0 0).tbl_wf
  inp_wf := Memory.cells_wf _ _
  inp_seq := ⟨_, rfl⟩
  out_wf := List.Pairwise.nil
  tbl_range := (fresh_inv 0 0).tbl_range
  stack_empty := rfl
  when_idle := fun h => nomatch h
  when_launched := fun _ =>
    let h := fresh_launched 0 0
    ⟨h.mincs_low, h.mincs_high, h.clear_eq, h.eoi_eq, h.size_low, h.size_high, h.mask_eq, h.avail_low, h.avail_high,
      h.avail_width, h.avail_fits, h.empty_avail, h.buffer_small, show 0 ≤ 1 by decide, h.output_within, h.prev_live,
      h.prev_string, h.seeded, h.entries⟩
  when_running := fun _ =>
    { input_whole := rfl
      cause_none := rfl
      count_small := show 0 ≤ 7 by decide
      buffer := ⟨show 0 ≤ 0 by decide, fun j hj => absurd hj (Nat.not_lt_zero j)⟩
      written := Memory.isSome_read_cells ([] : List Sym) }
  when_stopped := fun h => nomatch h

/-- EndOfRunIsComplete: a step that ends a run. -/
theorem witness_EndOfRunIsComplete :
    Inv endsByEoi ∧ endsByEoi.phase = .run ∧ endsByEoi.host = [] ∧ ∃ t, step endsByEoi = .next t ∧ t.phase = .done :=
  ⟨endsByEoi_inv, rfl, rfl, _, rfl, rfl⟩

/-- OutputIsWrittenOnceInOrder and ProgramCounterMovesByTheWidth: a step that emits, and one that stops. -/
theorem witness_OutputIsWrittenOnceInOrder :
    (Inv midRun ∧ midRun.phase = .run ∧ midRun.host = [] ∧ ∃ t, step midRun = .next t) ∧
      (Inv endsByEoi ∧ endsByEoi.phase = .run ∧ endsByEoi.host = [] ∧ ∃ t, step endsByEoi = .next t) :=
  ⟨⟨midRun_inv, rfl, rfl, _, rfl⟩, ⟨endsByEoi_inv, rfl, rfl, _, rfl⟩⟩

/-- ProgramCounterMovesByTheWidth: the stop that reads no code. -/
theorem witness_ProgramCounterMovesByTheWidth :
    Inv midRun ∧ midRun.phase = .run ∧ midRun.host = [] ∧ ∃ t, step midRun = .next t ∧ t.bitPos = midRun.bitPos + 4 :=
  ⟨midRun_inv, rfl, rfl, _, rfl, by decide⟩

/-- OnlyStartStopAndResetChangeThePhase: a step of a run, and a start and a reset outside one. -/
theorem witness_OnlyStartStopAndResetChangeThePhase :
    (∃ t, step endsByEoi = .next t ∧ endsByEoi.phase = .run ∧ t.phase = .done) ∧
    (∃ t, step { State.reset with host := [.start 2 4 0] } = .next t ∧ t.phase = .run) ∧
    (∃ t, step { finished 0 0 with host := [.reset] } = .next t ∧ t.phase = .idle) :=
  ⟨⟨_, rfl, rfl, rfl⟩, ⟨_, rfl, rfl⟩, ⟨_, rfl, rfl⟩⟩

/-- StatusFollowsTheCause: a stopped state and a run. -/
theorem witness_StatusFollowsTheCause : Inv (finished 0 0) ∧ (finished 0 0).short = true ∧ Inv midRun :=
  ⟨finished_inv 0 0, rfl, midRun_inv⟩

/-- LaunchValuesAndInputAreConstant: a step of the block. -/
theorem witness_LaunchValuesAndInputAreConstant : midRun.host = [] ∧ ∃ t, step midRun = .next t := ⟨rfl, _, rfl⟩

/-- OnlyEntryAvailIsWritten: a step that adds entry 9, and the entries beside it. -/
theorem witness_OnlyEntryAvailIsWritten :
    midRun.host = [] ∧ 8 ≠ midRun.avail.toNat ∧ 10 ≠ midRun.avail.toNat ∧
      ∃ t, step midRun = .next t ∧ Memory.read t.tbl 9 = some ⟨8, 2⟩ := ⟨rfl, by decide, by decide, _, rfl, by decide⟩

/-- HiddenStateNeverShows: two launched states that differ in `PREV` and `FIRST` with `PREVV` = 0. -/
theorem witness_HiddenStateNeverShows :
    Inv (fresh 0 0) ∧ Inv (fresh 7 9) ∧ SameRun (fresh 0 0) (fresh 7 9) ∧ fresh 0 0 ≠ fresh 7 9 ∧
      ∃ t, step (fresh 0 0) = .next t :=
  ⟨fresh_inv 0 0, fresh_inv 7 9, ⟨fun _ _ => rfl, fun h => (nomatch h), rfl⟩,
    fun h => absurd (congrArg State.prev h) (by decide), _, rfl⟩

/-- RunIsAFunctionOfItsLaunch: two finished blocks that differ in hidden state, launched alike, one step each. -/
theorem witness_RunIsAFunctionOfItsLaunch :
    Inv (finished 0 0) ∧ Inv (finished 7 9) ∧ (finished 0 0).phase ≠ .run ∧ (finished 7 9).phase ≠ .run ∧
      (finished 0 0).inp = (finished 7 9).inp ∧ (finished 0 0).host = [] ∧ (finished 7 9).host = [] ∧
      2 ≤ (2 : Byte).toNat ∧ (2 : Byte).toNat ≤ 8 ∧
      (∃ s', Sys2Proof.core.run 1 { finished 0 0 with host := [.start 2 4 2] } = .next s') ∧
      ∃ t', Sys2Proof.core.run 1 { finished 7 9 with host := [.start 2 4 2] } = .next t' :=
  ⟨finished_inv 0 0, finished_inv 7 9, show Phase.done ≠ .run by decide, show Phase.done ≠ .run by decide, rfl, rfl, rfl,
    by decide, by decide, ⟨_, rfl⟩, ⟨_, rfl⟩⟩

/-- WidthScheduleIsTheDecoders: a step that grows the width. -/
theorem witness_WidthScheduleIsTheDecoders :
    Launched narrow ∧ Instr.wf narrow.codeRegs (.kwkwk 7) = true ∧ codeOf narrow.codeRegs (.kwkwk 7) ≠ none ∧
      ∃ t, exec (.kwkwk 7) narrow = .next t ∧ t.codeSize = 4 := ⟨narrow_launched, rfl, by decide, _, rfl, by decide⟩

/-- AssembledListingStandsInTheStream: S1's listing in `IN` of an idle block. -/
theorem witness_AssembledListingStandsInTheStream :
    let s := { State.reset with inp := Memory.cells 0 (assemble 2 [4, 0, 1, 5]) }
    s.phase ≠ .run ∧ 2 ≤ (2 : Byte).toNat ∧ (2 : Byte).toNat ≤ 8 ∧
      s.inp = Memory.cells 0 (assemble (2 : Byte).toNat [4, 0, 1, 5]) := by decide

/-- ListingIsReadBackInOrder: the rest of V2's listing, 2, 9 and `EOI`, stands next in the stream of `midRun`. -/
theorem witness_ListingIsReadBackInOrder :
    Inv midRun ∧ midRun.phase = .run ∧ midRun.host = [] ∧ midRun.outPos ≠ midRun.pixCnt ∧
      (2 : Code).toNat < 2 ^ midRun.codeSize.toNat ∧
      StreamFrom midRun (listingBits midRun.mincs.toNat midRun.codeRegs [2, 9, 5]) ∧
      (listingBits midRun.mincs.toNat midRun.codeRegs [2, 9, 5]).length ≤ 8 * midRun.inLen - midRun.bitPos :=
  ⟨midRun_inv, rfl, rfl, by decide, by decide, by decide, by decide⟩

end Sys2Proof.Machine
end

section
/-! PROOFS. Classes and decoded codes: what an answer of the decoder says of the code and of the bits read. -/

namespace Sys2Proof

/-- Everything a classification can answer, with the condition of its row in R95. -/
theorem classify_cases {r : CodeRegs} {c : Code} {i : Instr} (h : classify r c = .ok i) :
    (i = .clear ∧ c.toNat = r.clearCode.toNat) ∨ (i = .eoi ∧ c.toNat = r.eoiCode.toNat) ∨
    (i = .invalid c ∧ (r.avail.toNat < c.toNat ∨ (c.toNat = r.avail.toNat ∧ r.prevV = false))) ∨
    (i = .lit c ∧ c.toNat < r.clearCode.toNat) ∨
    (i = .entry c ∧ r.clearCode.toNat + 2 ≤ c.toNat ∧ c.toNat < r.avail.toNat) ∨
    (i = .kwkwk c ∧ c.toNat = r.avail.toNat ∧ r.prevV = true) := by
  unfold classify at h
  split_ifs at h <;> cases h <;> simp_all

/-- The host command is no class of a code (R103). -/
theorem classify_ne_start {r : CodeRegs} {c : Code} {m : Byte} {n : BitVec 32} {len : Nat} :
    classify r c ≠ .ok (.start m n len) := fun h => nomatch codeOf_of_classify h

/-- Everything an answer of the decoder says: the bits of one code stood there, the instruction is its class, the rest is
what follows them (R90 to R92). -/
theorem decode_ok {r : CodeRegs} {bits rest : List Bool} {i : Instr} (h : decode r bits = .ok (i, rest)) :
    r.codeSize.toNat ≤ bits.length ∧
      classify r (BitVec.ofNat 12 (natOfBits (bits.take r.codeSize.toNat))) = .ok i ∧
      rest = bits.drop r.codeSize.toNat := by
  unfold decode at h
  split at h
  · cases h
  · next hlen =>
    split at h
    · next hi => cases h; exact ⟨by omega, hi, rfl⟩
    · cases h

/-- An instruction that the decoder answers is well formed (R90, R95). -/
theorem decode_wf {r : CodeRegs} {bits rest : List Bool} {i : Instr} (h : decode r bits = .ok (i, rest)) :
    i.wf r = true := by
  cases i with
  | clear => exact Laws.DecodeSound.clear r bits rest h
  | eoi => exact Laws.DecodeSound.eoi r bits rest h
  | invalid c => exact Laws.DecodeSound.invalid c r bits rest h
  | lit c => exact Laws.DecodeSound.lit c r bits rest h
  | entry c => exact Laws.DecodeSound.entry c r bits rest h
  | kwkwk c => exact Laws.DecodeSound.kwkwk c r bits rest h
  | start m n len => exact Laws.DecodeSound.start m n len r bits rest h

/-- Bit `j` of the bits of a number is its bit `j` (R69). -/
theorem getElem_bitsOfNat {w n j : Nat} (h : j < (bitsOfNat w n).length) : (bitsOfNat w n)[j] = n.testBit j := by
  induction w generalizing n j with
  | zero => exact absurd h (Nat.not_lt_zero j)
  | succ w ih =>
    cases j with
    | zero => simp [bitsOfNat, Nat.testBit_zero]
    | succ j => simp only [bitsOfNat, List.getElem_cons_succ, ih, Nat.testBit_succ]

/-- Bits that agree with those of a code that fits the width are the bits of that code. -/
theorem natOfBits_take_eq {bits : List Bool} {w : Nat} {c : Code} (hw : w ≤ bits.length) (hc : c.toNat < 2 ^ w)
    (hbits : ∀ j, (h : j < bits.length) → j < w → bits[j] = c.getLsbD j) : natOfBits (bits.take w) = c.toNat := by
  have htake : bits.take w = bitsOfNat w c.toNat := by
    refine List.ext_getElem (by simp [bitsOfNat_length, hw]) (fun j h1 h2 => ?_)
    rw [List.length_take] at h1
    rw [List.getElem_take, getElem_bitsOfNat, hbits j (by omega) (by omega)]
    rfl
  rw [htake, natOfBits_bitsOfNat, Nat.mod_eq_of_lt hc]

end Sys2Proof
end

section
/-! PROOFS. The step, inverted: everything the block's step can leave, whatever the state, and what it keeps. -/

namespace Sys2Proof.Machine

/-! ### The step from its parts -/

theorem codeStep_of_full {s : State} (h : s.outPos = s.pixCnt) : codeStep s = .next (stop .complete s) := by
  unfold codeStep
  rw [if_pos h]

theorem codeStep_of_ended {s u : State} (h : s.outPos ≠ s.pixCnt) (hf : fetch s = .ended u) :
    codeStep s = .next (stop .exhausted u) := by
  unfold codeStep
  rw [if_neg h, hf]

theorem codeStep_of_code {s u : State} {c : Code} {i : Instr} (h : s.outPos ≠ s.pixCnt) (hf : fetch s = .code c u)
    (hc : classify u.codeRegs c = .ok i) : codeStep s = exec i u := by
  unfold codeStep
  rw [if_neg h, hf]
  simp only [hc]

/-! ### The step inverted -/

/-- `t` is what the operation of a code leaves of `u` when it completes: a stop by `EOI` or `INVALID`, the dictionary reset,
or a data code's effect. -/
inductive CodeDone (u : State) : State → Prop where
  | stop {c : Cause} : c = .eoi ∨ c = .invalid → CodeDone u (stop c u)
  | clear : CodeDone u (resetDictionary u)
  | data {c : Code} {t : State} : DataDone c u t → CodeDone u t

theorem codeDone_of_exec {r : CodeRegs} {c : Code} {i : Instr} {u t : State} (hc : classify r c = .ok i)
    (h : exec i u = .next t) : CodeDone u t := by
  rcases exec_cases h with ⟨_, rfl⟩ | ⟨_, rfl⟩ | ⟨_, rfl⟩ | ⟨_, _, hd⟩ | ⟨m, n, len, rfl, _⟩
  · exact .clear
  · exact .stop (.inl rfl)
  · exact .stop (.inr rfl)
  · exact .data hd
  · exact absurd hc classify_ne_start

/-- Everything a completing step of a run leaves: the two stops that read no code, or the operation of the code read. -/
theorem codeStep_done {s t : State} (h : codeStep s = .next t) :
    (s.outPos = s.pixCnt ∧ t = stop .complete s) ∨ (∃ u, fetch s = .ended u ∧ t = stop .exhausted u) ∨
    (∃ c u, fetch s = .code c u ∧ CodeDone u t) := by
  rcases codeStep_next h with h1 | ⟨_, u, hf, ht⟩ | ⟨_, c, u, i, hf, hc, hx⟩
  · exact .inl h1
  · exact .inr (.inl ⟨u, hf, ht⟩)
  · exact .inr (.inr ⟨c, u, hf, codeDone_of_exec hc hx⟩)

/-- A completing write of `IN` happens outside a run, and leaves exactly its bytes (R231, R234). -/
theorem hostWriteIn_next {bytes : List Byte} {s t : State} (h : hostWriteIn bytes s = .next t) :
    s.phase ≠ .run ∧ t = { s with inp := Memory.cells 0 bytes } := by
  unfold hostWriteIn at h
  split at h
  · cases h
  · next hp => cases h; exact ⟨hp, rfl⟩

/-- Everything a completing transition can be: the block's own step, a `START`, a write of `IN` or the reset (R234). -/
theorem step_cases {s t : State} (h : step s = .next t) :
    (∃ rest, blockStep { s with host := rest } = .next t) ∨
    (∃ m n len rest, s.host = .start m n len :: rest ∧ execStart m n len { s with host := rest } = .next t) ∨
    (∃ bytes rest, s.phase ≠ .run ∧ t = { s with inp := Memory.cells 0 bytes, host := rest }) ∨
    (∃ rest, s.host = .reset :: rest ∧ t = { State.reset with host := rest }) := by
  cases hh : s.host with
  | nil =>
    rw [step_of_no_host hh] at h
    exact .inl ⟨[], by rw [← hh]; exact h⟩
  | cons m rest =>
    rw [step_of_host hh] at h
    cases m with
    | wait => exact .inl ⟨rest, h⟩
    | start m n len => exact .inr (.inl ⟨m, n, len, rest, rfl, h⟩)
    | writeIn bytes =>
      obtain ⟨hp, rfl⟩ := hostWriteIn_next h
      exact .inr (.inr (.inl ⟨bytes, rest, hp, rfl⟩))
    | reset => cases h; exact .inr (.inr (.inr ⟨rest, rfl, rfl⟩))

/-- Everything a completing `START` can be: ignored in a run, else the launch with a legal argument (R120 to R123). -/
theorem execStart_cases {m : Byte} {n : BitVec 32} {len : Nat} {s t : State} (h : execStart m n len s = .next t) :
    (s.phase = .run ∧ t = s) ∨
    (s.phase ≠ .run ∧ 2 ≤ m.toNat ∧ m.toNat ≤ 8 ∧ s.suppliedBytes = len ∧ t = launch m n len s) := by
  rcases exec_cases (i := .start m n len) h with ⟨h, _⟩ | ⟨h, _⟩ | ⟨⟨_, h⟩, _⟩ | ⟨_, h, _⟩ | ⟨_, _, _, h, hs⟩
  · cases h
  · cases h
  · cases h
  · rcases h with h | h | h <;> cases h
  · cases h; exact hs

/-! ### What the block's step keeps -/

/-- `t` has the launch registers, `IN` and the host's coming moves of `s` (R37, R62). -/
abbrev SameLaunch (s t : State) : Prop :=
  t.mincs = s.mincs ∧ t.clearCode = s.clearCode ∧ t.eoiCode = s.eoiCode ∧ t.pixCnt = s.pixCnt ∧ t.inLen = s.inLen ∧
    t.inp = s.inp ∧ t.host = s.host

theorem SameButBuffer.sameLaunch {s u : State} (h : SameButBuffer s u) : SameLaunch s u := by
  rw [h]
  exact ⟨rfl, rfl, rfl, rfl, rfl, rfl, rfl⟩

/-- The operation of a code keeps the launch registers and `IN`. -/
theorem CodeDone.sameLaunch {u t : State} (h : CodeDone u t) : SameLaunch u t := by
  cases h with
  | stop _ => exact ⟨rfl, rfl, rfl, rfl, rfl, rfl, rfl⟩
  | clear => exact ⟨rfl, rfl, rfl, rfl, rfl, rfl, rfl⟩
  | data hd => obtain ⟨f, l, rfl⟩ := hd; simp [SameLaunch]

/-- The operation of a code keeps the bit buffer and the input position, so `BITPOS` too: only the fetch moves it (R49). -/
theorem CodeDone.bitPos {u t : State} (h : CodeDone u t) : t.bitPos = u.bitPos := by
  cases h with
  | stop _ => rfl
  | clear => rfl
  | data hd => obtain ⟨f, l, rfl⟩ := hd; simp [State.bitPos]

/-- The operation of a code lets the run go on, or stops it with a cause. -/
theorem CodeDone.phase {u t : State} (h : CodeDone u t) : t.phase = u.phase ∨ (t.phase = .done ∧ t.cause ≠ .none) := by
  cases h with
  | stop hc => rcases hc with rfl | rfl <;> simp
  | clear => exact .inl rfl
  | data hd => obtain ⟨f, l, rfl⟩ := hd; simp

theorem codeStep_sameLaunch {s t : State} (h : codeStep s = .next t) : SameLaunch s t := by
  rcases codeStep_done h with ⟨_, rfl⟩ | ⟨u, hf, rfl⟩ | ⟨c, u, hf, hd⟩
  · exact ⟨rfl, rfl, rfl, rfl, rfl, rfl, rfl⟩
  · exact ((fetch_frame s).2 u hf).sameLaunch
  · obtain ⟨h1, h2, h3, h4, h5, h6, h7⟩ := ((fetch_frame s).1 c u hf).sameLaunch
    simpa only [SameLaunch, h1, h2, h3, h4, h5, h6, h7] using hd.sameLaunch

theorem blockStep_sameLaunch {s t : State} (h : blockStep s = .next t) : SameLaunch s t := by
  by_cases hp : s.phase = .run
  · exact codeStep_sameLaunch (blockStep_of_run hp ▸ h)
  · rw [blockStep_of_rest hp] at h
    cases h
    exact ⟨rfl, rfl, rfl, rfl, rfl, rfl, rfl⟩

/-- A step of a run lets the run go on, or stops it with a cause (R198). -/
theorem codeStep_phase {s t : State} (h : codeStep s = .next t) :
    t.phase = s.phase ∨ (t.phase = .done ∧ t.cause ≠ .none) := by
  rcases codeStep_done h with ⟨_, rfl⟩ | ⟨u, _, rfl⟩ | ⟨c, u, hf, hd⟩
  · simp
  · simp
  · have hu : u.phase = s.phase := by rw [(fetch_frame s).1 c u hf]
    exact hu ▸ hd.phase

/-- Settles O43: neither the fetch nor the operation of a code writes a launch register or `IN`. -/
theorem launchValuesAndInputAreConstant : Obligations.LaunchValuesAndInputAreConstant := by
  intro s t hh h
  rw [step_of_no_host hh] at h
  obtain ⟨h1, h2, h3, h4, h5, h6, h7⟩ := blockStep_sameLaunch h
  exact ⟨h1, h2, h3, h4, h5, fun i => by rw [h6], h7.trans hh⟩

/-- Settles O40, by the inversion of the step. -/
theorem onlyStartStopAndResetChangeThePhase : Obligations.OnlyStartStopAndResetChangeThePhase := by
  intro s t h
  rcases step_cases h with ⟨rest, hb⟩ | ⟨m, n, len, rest, hh, hx⟩ | ⟨bytes, rest, hp, rfl⟩ | ⟨rest, hh, rfl⟩
  · refine ⟨fun hr => ?_, fun hr => ?_⟩
    · rw [blockStep_of_run (show State.phase { s with host := rest } = .run from hr)] at hb
      rcases codeStep_phase hb with hp | hp
      · exact .inl (hp.trans hr)
      · exact .inr (.inl hp)
    · rw [blockStep_of_rest (show State.phase { s with host := rest } ≠ .run from hr)] at hb
      cases hb
      exact .inl ⟨rfl, rfl⟩
  · rcases execStart_cases hx with ⟨hp, rfl⟩ | ⟨hp, h2, h8, _, rfl⟩
    · exact ⟨fun hr => .inl hr, fun hr => absurd hp hr⟩
    · exact ⟨fun hr => absurd hr hp, fun _ => .inr (.inr ⟨rfl, rfl, m, n, len, rest, hh, h2, h8⟩)⟩
  · exact ⟨fun hr => absurd hr hp, fun _ => .inl ⟨rfl, rfl⟩⟩
  · exact ⟨fun _ => .inr (.inr ⟨rfl, rest, hh⟩), fun _ => .inr (.inl ⟨rfl, rfl, rest, hh⟩)⟩

end Sys2Proof.Machine
end

section
/-! PROOFS. The fetch under the invariant: it reads the stream, and moves `BITPOS` by the width (R49, R69, R126). -/

namespace Sys2Proof.Machine

/-- Under the mask of the width, with enough bits buffered, the code in the buffer is the buffer's low bits (R92). -/
theorem codeInBuffer_bits {u : State} (h12 : u.codeSize.toNat ≤ 12)
    (hm : u.codeMask.toNat = 2 ^ u.codeSize.toNat - 1) :
    u.codeInBuffer.toNat < 2 ^ u.codeSize.toNat ∧
      ∀ j < u.codeSize.toNat, u.codeInBuffer.getLsbD j = u.bitBuf.getLsbD j := by
  constructor
  · have hmask : (u.codeMask.setWidth 19).toNat < 2 ^ u.codeSize.toNat := by
      have := Nat.two_pow_pos u.codeSize.toNat
      rw [BitVec.toNat_setWidth]
      exact Nat.lt_of_le_of_lt (Nat.mod_le _ _) (by omega)
    rw [State.codeInBuffer, BitVec.toNat_setWidth, BitVec.toNat_and]
    exact Nat.lt_of_le_of_lt (Nat.mod_le _ _) (Nat.lt_of_le_of_lt Nat.and_le_right hmask)
  · intro j hj
    have hbit : u.codeMask.getLsbD j = true := by
      rw [BitVec.getLsbD, hm, Nat.testBit_two_pow_sub_one]
      exact decide_eq_true hj
    have h1 : j < 12 := by omega
    have h2 : j < 19 := by omega
    simp [State.codeInBuffer, hbit, h1, h2]

/-- A code that the fetch answers is the stream's bits from `BITPOS` on, and fits the width (R69, R126). -/
theorem fetch_code_bits {s u : State} {c : Code} (h : FillOk s) (h12 : s.codeSize.toNat ≤ 12)
    (hm : s.codeMask.toNat = 2 ^ s.codeSize.toNat - 1) (hf : fetch s = .code c u) :
    c.toNat < 2 ^ s.codeSize.toNat ∧
      ∀ j < s.codeSize.toNat, s.streamBit (s.bitPos + j) = some (c.getLsbD j) := by
  unfold fetch at hf
  split at hf
  · next v hv =>
    cases hf
    obtain ⟨hok, hpos, _, henough⟩ := (fillBuffer_ok 2 s h h12).1 v hv
    have hsame : SameButBuffer s v := (fillBuffer_frame 2 s).1 v hv
    have hsize : v.codeSize = s.codeSize := by rw [hsame]
    have hmask : v.codeMask = s.codeMask := by rw [hsame]
    obtain ⟨hlt, hbits⟩ := codeInBuffer_bits (u := v) (by rw [hsize]; exact h12) (by rw [hsize, hmask]; exact hm)
    rw [hsize] at hlt hbits
    have hcount : s.codeSize.toNat ≤ v.bitCnt.toNat := henough (by omega)
    refine ⟨hlt, fun j hj => ?_⟩
    rw [hbits j hj, ← hok.buf.bits j (by omega), hsame.streamBit, hpos]
  · cases hf
  · cases hf

/-- The state of a run between steps is one the fetch works from. -/
theorem Inv.fillOk {s : State} (h : Inv s) (hr : s.phase = .run) : FillOk s :=
  have hl : Launched s := h.when_launched (by rw [hr]; decide)
  ⟨(h.when_running hr).buffer, hl.buffer_small, hl.input_within⟩

theorem Inv.launched {s : State} (h : Inv s) (hr : s.phase = .run) : Launched s := h.when_launched (by rw [hr]; decide)

/-- In a run, with the bits of a whole code left, the fetch answers a code (R126, R127). -/
theorem Inv.fetch_of_bits_left {s : State} (h : Inv s) (hr : s.phase = .run)
    (hleft : s.codeSize.toNat ≤ 8 * s.inLen - s.bitPos) : ∃ c u, fetch s = .code c u := by
  have hl := h.launched hr
  cases hf : fetch s with
  | code c u => exact ⟨c, u, rfl⟩
  | ended u =>
    obtain ⟨hok, hpos, _, hfew, hend, hsame⟩ :=
      (fetch_ok (h.fillOk hr) (h.when_running hr).count_small hl.size_high).2 u hf
    have hloaded := hok.buf.loaded
    rw [State.bitPos, hend] at hpos
    rw [hend] at hloaded
    omega
  | absent i =>
    obtain ⟨hlt, hnone⟩ := fetch_absent hl.input_within hf
    have := (h.read_inp hr i).mpr hlt
    rw [hnone] at this
    cases this

/-- With its buffer true to the stream, `BITPOS` never passes the end of the input. -/
theorem FillOk.bitPos_le {s : State} (h : FillOk s) : s.bitPos ≤ 8 * s.inLen := by
  have := h.within
  rw [State.bitPos]
  omega

/-- Settles O39: the fetch moves `BITPOS` by the width or, at the end of the input, not at all, and nothing else in a step
moves it. -/
theorem programCounterMovesByTheWidth : Obligations.ProgramCounterMovesByTheWidth := by
  intro s t h hr hh hs
  rw [step_run hh hr] at hs
  obtain ⟨hcode, hended⟩ := fetch_ok (h.fillOk hr) (h.when_running hr).count_small (h.launched hr).size_high
  rcases codeStep_done hs with ⟨_, rfl⟩ | ⟨u, hf, rfl⟩ | ⟨c, u, hf, hd⟩
  · exact ⟨.inr ⟨rfl, rfl, .inl rfl⟩, (h.fillOk hr).bitPos_le⟩
  · obtain ⟨hok, hpos, _⟩ := hended u hf
    exact ⟨.inr ⟨hpos, rfl, .inr rfl⟩, hok.bitPos_le⟩
  · obtain ⟨hok, hpos, _⟩ := hcode c u hf
    obtain ⟨_, _, _, _, hlen, _⟩ := hd.sameLaunch
    rw [hd.bitPos, hlen]
    exact ⟨.inl hpos, hok.bitPos_le⟩

/-- Settles O11: the fetch answers a code, its bits are those that the decoder was given, and both classify it under the
same registers. -/
theorem streamInstructionIsRun : Obligations.StreamInstructionIsRun := by
  intro s bits rest i h hr hh hout hlen hstream hdec
  refine ⟨decode_wf hdec, ?_⟩
  obtain ⟨hsize, hclass, rfl⟩ := decode_ok hdec
  have hl := h.launched hr
  obtain ⟨c, u, hf⟩ := h.fetch_of_bits_left hr (Nat.le_trans hsize hlen)
  obtain ⟨hlt, hbits⟩ := fetch_code_bits (h.fillOk hr) hl.size_high hl.mask_eq hf
  obtain ⟨_, hpos, _, hsame⟩ := (fetch_ok (h.fillOk hr) (h.when_running hr).count_small hl.size_high).1 c u hf
  have hregs : u.codeRegs = s.codeRegs := by rw [hsame]; rfl
  have hnum : natOfBits (bits.take s.codeSize.toNat) = c.toNat :=
    natOfBits_take_eq hsize hlt fun j hj hjw => Option.some.inj ((hstream j hj).symm.trans (hbits j hjw))
  have hc : classify u.codeRegs c = .ok i := by
    rw [hregs, ← hclass, show s.codeRegs.codeSize = s.codeSize from rfl, hnum, BitVec.ofNat_toNat, BitVec.setWidth_eq]
  refine ⟨u, ?_, hpos, fun j hj => ?_, hsame⟩
  · rw [step_run hh hr, codeStep_of_code hout hf hc]
  · rw [List.length_drop] at hj
    rw [List.getElem_drop, ← hstream _ (by omega), hsame.streamBit, hpos, Nat.add_assoc]
    rfl

end Sys2Proof.Machine
end

section
/-! PROOFS. The strings of the codes in a launched block (R46, R47, R160), and the string that each data code emits. -/

namespace Sys2Proof.Machine

/-- A base code as a symbol is below `CLEARCODE` too. -/
theorem setWidth_lt {c : Code} {n : Nat} (h : c.toNat < n) : (c.setWidth 8).toNat < n := by
  rw [BitVec.toNat_setWidth]
  exact Nat.lt_of_le_of_lt (Nat.mod_le _ _) h

/-- `CLEARCODE` is at least 4 (R24, R25). -/
theorem Launched.four_le_clear {s : State} (h : Launched s) : 4 ≤ s.clearCode.toNat := by
  rw [h.clear_eq]
  exact Nat.pow_le_pow_right (n := 2) (by decide) h.mincs_low

/-- In a launched block every live code has a string, of base codes, as short as R46 and R47 say: an entry names
a live code below itself, and its own string is one symbol longer. -/
theorem Launched.exists_str {s : State} (h : Launched s) {c : Code} (hc : s.liveCode c.toNat) :
    ∃ l, Str s.clearCode.toNat s.tbl c l ∧ (∀ v ∈ l, v.toNat < s.clearCode.toNat) ∧
      (c.toNat < s.clearCode.toNat → l.length = 1) ∧
      (s.clearCode.toNat ≤ c.toNat → l.length + s.clearCode.toNat ≤ c.toNat) := by
  induction hn : c.toNat using Nat.strong_induction_on generalizing c with
  | _ n ih =>
    subst hn
    obtain ⟨hlt, hnc, hne⟩ := hc
    by_cases hb : c.toNat < s.clearCode.toNat
    · exact ⟨[c.setWidth 8], .base hb, by simpa using setWidth_lt hb, fun _ => rfl, fun hh => by omega⟩
    · have heoi := h.eoi_eq
      obtain ⟨e, he, hpfx, hpc, hpe, hsfx⟩ := h.entries c.toNat (by omega) hlt
      obtain ⟨l, hl, hsym, hbase, hlen⟩ := ih e.pfx.toNat hpfx ⟨by omega, hpc, hpe⟩ rfl
      refine ⟨l ++ [e.sfx], .link (by omega) he hl, ?_, fun hh => by omega, fun _ => ?_⟩
      · intro v hv
        rcases List.mem_append.mp hv with hv | hv
        · exact hsym v hv
        · rwa [List.mem_singleton.mp hv]
      · rw [List.length_append, List.length_singleton]
        by_cases hpb : e.pfx.toNat < s.clearCode.toNat
        · have := hbase hpb
          omega
        · have := hlen (by omega)
          omega

/-- Settles O24, by the strings that `Launched.exists_str` builds; a code has at most one. -/
theorem stringsAreDefinedAndShort : Obligations.StringsAreDefinedAndShort := by
  intro s c h hc
  obtain ⟨l, hl, hsym, hbase, hlen⟩ := h.exists_str hc
  refine ⟨l, hl, fun l' hl' => hl'.unique hl, List.length_pos_of_ne_nil hl.ne_nil, hsym, hbase, hlen, ?_⟩
  have hclear := h.four_le_clear
  have hc12 := c.isLt
  by_cases hb : c.toNat < s.clearCode.toNat
  · have := hbase hb
    omega
  · have := hlen (by omega)
    omega

/-- A string of a live code has base symbols and at most 4091 of them. -/
theorem Launched.str_bounds {s : State} (h : Launched s) {c : Code} (hc : s.liveCode c.toNat) {l : List Sym}
    (hl : Str s.clearCode.toNat s.tbl c l) : (∀ v ∈ l, v.toNat < s.clearCode.toNat) ∧ l.length ≤ 4091 := by
  obtain ⟨l', _, huniq, _, hsym, _, _, hlen⟩ := stringsAreDefinedAndShort s c h hc
  rw [huniq l hl]
  exact ⟨hsym, hlen⟩

/-- The string `f :: l` that the data instruction `i` on the code `c` emits from `s`, by the conditions of R95 and the rules
of R166 to R168. -/
inductive DataString (s : State) : Instr → Code → Sym → List Sym → Prop where
  | lit {c : Code} : c.toNat < s.clearCode.toNat → DataString s (.lit c) c (c.setWidth 8) []
  | entry {c : Code} {f : Sym} {l : List Sym} : s.liveCode c.toNat → Str s.clearCode.toNat s.tbl c (f :: l) →
      DataString s (.entry c) c f l
  | kwkwk {c : Code} {l : List Sym} : c.toNat = s.avail.toNat → s.prevV = true →
      Str s.clearCode.toNat s.tbl s.prev (s.firstSym :: l) → DataString s (.kwkwk c) c s.firstSym (l ++ [s.firstSym])

/-- What a data code with the string `f :: l` leaves of `s` (R162 to R165). -/
abbrev dataUpdate (c : Code) (f : Sym) (l : List Sym) (s : State) : State :=
  notePrev c f (tableAdd f (emit (f :: l) s))

/-- In a launched block a code that is classified is a control code, is invalid, or has a string to emit. -/
theorem Launched.dataString_of_classify {s : State} (h : Launched s) {c : Code} {i : Instr}
    (hc : classify s.codeRegs c = .ok i) :
    i = .clear ∨ i = .eoi ∨ i = .invalid c ∨ ∃ f l, DataString s i c f l := by
  rcases classify_cases hc with ⟨rfl, _⟩ | ⟨rfl, _⟩ | ⟨rfl, _⟩ | ⟨rfl, hlt⟩ | ⟨rfl, hlo, hhi⟩ | ⟨rfl, heq, hpv⟩
  · exact .inl rfl
  · exact .inr (.inl rfl)
  · exact .inr (.inr (.inl rfl))
  · exact .inr (.inr (.inr ⟨_, _, .lit hlt⟩))
  · have heoi := h.eoi_eq
    replace hlo : s.clearCode.toNat + 2 ≤ c.toNat := hlo
    have hlive : s.liveCode c.toNat := ⟨hhi, by omega, by omega⟩
    obtain ⟨l, hl, _⟩ := h.exists_str hlive
    obtain ⟨f, l', rfl⟩ := List.exists_cons_of_ne_nil hl.ne_nil
    exact .inr (.inr (.inr ⟨f, l', .entry hlive hl⟩))
  · obtain ⟨l, hl⟩ := h.prev_string hpv
    exact .inr (.inr (.inr ⟨_, _, .kwkwk heq hpv hl⟩))

/-- A data instruction of a launched block, between steps, completes: it emits its string, adds, grows and updates
(R166 to R169). -/
theorem DataString.exec_eq {s : State} {i : Instr} {c : Code} {f : Sym} {l : List Sym} (hd : DataString s i c f l)
    (h : Launched s) (hs : s.stk = []) : exec i s = .next (dataUpdate c f l s) := by
  cases hd with
  | lit hlt =>
    show execLit c s = _
    unfold execLit
    rw [push_of_room _ (by rw [hs]; decide), hs]
    exact finishData_on hs c _ []
  | entry hlive hstr =>
    show execEntry c s = _
    have hlen := (h.str_bounds hlive hstr).2
    unfold execEntry
    rw [walk_of_str hstr (by rw [hs]; simp only [List.length_nil]; omega), hs, List.append_nil]
    exact finishData_on hs c f l
  | @kwkwk _ l' heq hpv hstr =>
    show execKwkwk c s = _
    have hlen := (h.str_bounds (h.prev_live hpv) hstr).2
    unfold execKwkwk
    rw [push_of_room _ (by rw [hs]; decide), hs]
    have hwalk := walk_of_str (s := { s with stk := [s.firstSym] }) hstr
      (by simp only [List.length_singleton]; omega)
    simp only [hwalk]
    exact finishData_on hs c _ _

end Sys2Proof.Machine
end

section
/-! PROOFS. The invariant: what each operation keeps of it, and then the step (R40 to R48). -/

namespace Sys2Proof.Machine

/-! ### The numbers of a fresh and of a growing dictionary -/

/-- Right after `START` or `CLEAR` the dictionary registers meet R40, R41 and R97, whatever the table holds above the
seeds. -/
theorem launched_of_fresh_dictionary {s : State} (hlow : 2 ≤ s.mincs.toNat) (hhigh : s.mincs.toNat ≤ 8)
    (hclear : s.clearCode.toNat = 2 ^ s.mincs.toNat) (heoi : s.eoiCode.toNat = s.clearCode.toNat + 1)
    (hsize : s.codeSize.toNat = s.mincs.toNat + 1) (hmask : s.codeMask.toNat = 2 ^ (s.mincs.toNat + 1) - 1)
    (havail : s.avail.toNat = s.clearCode.toNat + 2) (hprev : s.prevV = false) (hbuf : s.bitBuf.toNat < 2 ^ s.bitCnt.toNat)
    (hin : s.inPos ≤ s.inLen) (hout : s.outPos.toNat ≤ s.pixCnt.toNat)
    (hseed : ∀ c < s.clearCode.toNat, Memory.read s.tbl c = some { pfx := 0, sfx := BitVec.ofNat 8 c }) :
    Launched s := by
  have h4 : 4 ≤ 2 ^ s.mincs.toNat := Nat.pow_le_pow_right (n := 2) (by decide) hlow
  have h256 : 2 ^ s.mincs.toNat ≤ 256 := Nat.pow_le_pow_right (n := 2) (by decide) hhigh
  refine ⟨hlow, hhigh, hclear, heoi, hsize.ge, by omega, by rw [hsize, hmask], havail.ge, by omega, ?_, .inl ?_,
    fun _ => havail, hbuf, hin, hout, by simp [hprev], by simp [hprev], hseed, fun e h1 h2 => by omega⟩
  · rw [hsize, Nat.add_sub_cancel]
    omega
  · rw [hsize, Nat.pow_succ]
    omega

/-- The mask and the width that `START` and `CLEAR` give are those of R28. -/
theorem fresh_width {m : Nat} (h : m ≤ 8) :
    (BitVec.ofNat 4 (m + 1)).toNat = m + 1 ∧ (BitVec.ofNat 12 (1 <<< (m + 1) - 1)).toNat = 2 ^ (m + 1) - 1 := by
  have h512 : 2 ^ (m + 1) ≤ 2 ^ 9 := Nat.pow_le_pow_right (by decide) (by omega)
  rw [BitVec.toNat_ofNat, BitVec.toNat_ofNat, Nat.one_shiftLeft]
  exact ⟨Nat.mod_eq_of_lt (by omega), Nat.mod_eq_of_lt (by omega)⟩

/-- With room in the table, the growth test after an add says that `AVAIL` has come to `2^CODESIZE` (R41, R164). -/
theorem Launched.grows_iff {s : State} (h : Launched s) (hroom : s.avail.toNat < 4096) :
    (s.avail.toNat + 1) &&& s.codeMask.toNat = 0 ↔ s.avail.toNat + 1 = 2 ^ s.codeSize.toNat := by
  have hfit : s.avail.toNat < 2 ^ s.codeSize.toNat := by
    rcases h.avail_fits with hf | ⟨_, hf⟩
    · exact hf
    · omega
  rw [h.mask_eq, Nat.and_two_pow_sub_one_eq_mod]
  constructor
  · intro h0
    by_contra hne
    rw [Nat.mod_eq_of_lt (by omega)] at h0
    omega
  · intro he
    rw [he, Nat.mod_self]

/-- Shifting in a one turns the mask of a width below 12 into the next width's (R164). -/
theorem grown_mask {x : BitVec 12} {w : Nat} (hw : w < 12) (hx : x.toNat = 2 ^ w - 1) :
    (x <<< 1 ||| 1#12).toNat = 2 ^ (w + 1) - 1 := by
  obtain rfl : x = BitVec.ofNat 12 (2 ^ w - 1) := by rw [← hx, BitVec.ofNat_toNat, BitVec.setWidth_eq]
  interval_cases w <;> decide

/-- The width that a data code leaves is the one R40 and R41 ask for the `AVAIL` it leaves. -/
theorem DataEffect.width_ok {s t : State} {c : Code} {f : Sym} {str : List Sym} (he : DataEffect s c f str t)
    (h : Launched s) :
    s.mincs.toNat + 1 ≤ t.codeSize.toNat ∧ t.codeSize.toNat ≤ 12 ∧ t.codeMask.toNat = 2 ^ t.codeSize.toNat - 1 ∧
      2 ^ (t.codeSize.toNat - 1) ≤ t.avail.toNat ∧
      (t.avail.toNat < 2 ^ t.codeSize.toNat ∨ (t.codeSize.toNat = 12 ∧ t.avail.toNat = 4096)) := by
  have havail := he.avail_eq
  have hsl := h.size_low
  have hsh := h.size_high
  have haw := h.avail_width
  by_cases hadd : s.prevV = true ∧ s.avail.toNat < 4096
  · rw [if_pos hadd] at havail
    have hiff := h.grows_iff hadd.2
    have hfit : s.avail.toNat < 2 ^ s.codeSize.toNat := h.avail_fits.resolve_right (by omega)
    by_cases hg : s.avail.toNat + 1 = 2 ^ s.codeSize.toNat ∧ s.codeSize.toNat < 12
    · obtain ⟨hsize, hmask⟩ := he.grown hadd.1 hadd.2 (hiff.mpr hg.1) hg.2
      rw [havail, hmask, grown_mask hg.2 h.mask_eq, hsize, Nat.add_sub_cancel, Nat.pow_succ]
      have := Nat.two_pow_pos s.codeSize.toNat
      exact ⟨by omega, by omega, rfl, by omega, .inl (by omega)⟩
    · obtain ⟨hsize, hmask⟩ := he.not_grown fun hh => hg ⟨hiff.mp hh.2.2.1, hh.2.2.2⟩
      rw [havail, hmask, hsize]
      refine ⟨hsl, hsh, h.mask_eq, by omega, ?_⟩
      by_cases hlt : s.avail.toNat + 1 < 2 ^ s.codeSize.toNat
      · exact .inl hlt
      · have hsize12 : s.codeSize.toNat = 12 := by omega
        rw [hsize12] at hlt hfit ⊢
        exact .inr ⟨rfl, by omega⟩
  · rw [if_neg hadd] at havail
    obtain ⟨hsize, hmask⟩ := he.not_grown fun hh => hadd ⟨hh.1, hh.2.1⟩
    rw [havail, hmask, hsize]
    exact ⟨hsl, hsh, h.mask_eq, haw, h.avail_fits⟩

/-! ### A data code keeps the registers' and the table's invariants -/

/-- The first symbol of a data code's string is a base code (R46). -/
theorem DataString.first_lt {s : State} {i : Instr} {c : Code} {f : Sym} {l : List Sym} (hd : DataString s i c f l)
    (h : Launched s) : f.toNat < s.clearCode.toNat := by
  cases hd with
  | lit hlt => exact setWidth_lt hlt
  | entry hlive hstr => exact (h.str_bounds hlive hstr).1 f List.mem_cons_self
  | kwkwk _ hpv hstr => exact (h.str_bounds (h.prev_live hpv) hstr).1 _ List.mem_cons_self

/-- Entries that a data code leaves alone: the seeds and the entries below `AVAIL` (R41, R163). -/
theorem DataEffect.tbl_below {s t : State} {c : Code} {f : Sym} {str : List Sym} (he : DataEffect s c f str t) {e : Nat}
    (hlt : e < s.avail.toNat) : Memory.read t.tbl e = Memory.read s.tbl e :=
  he.tbl_old e fun hh => absurd hh.2.2 (Nat.ne_of_lt hlt)

/-- A data code never lowers `AVAIL` (R163). -/
theorem DataEffect.avail_le {s t : State} {c : Code} {f : Sym} {str : List Sym} (he : DataEffect s c f str t) :
    s.avail.toNat ≤ t.avail.toNat := by
  rw [he.avail_eq]
  split <;> omega

/-- An entry that is below `AVAIL` after a data code only is the one that it added (R163). -/
theorem DataEffect.added {s t : State} {c : Code} {f : Sym} {str : List Sym} (he : DataEffect s c f str t) {e : Nat}
    (h1 : s.avail.toNat ≤ e) (h2 : e < t.avail.toNat) :
    (s.prevV = true ∧ s.avail.toNat < 4096) ∧ e = s.avail.toNat := by
  have havail := he.avail_eq
  split at havail
  · next hadd => exact ⟨hadd, by omega⟩
  · omega

/-- After a data code its code is live, and its string in the new table is what was emitted (R34, R44, R168). -/
theorem DataString.after {s t : State} {i : Instr} {c : Code} {f : Sym} {l : List Sym} (hd : DataString s i c f l)
    (h : Launched s) (he : DataEffect s c f (f :: l) t) :
    c.toNat < t.avail.toNat ∧ c.toNat ≠ s.clearCode.toNat ∧ c.toNat ≠ s.eoiCode.toNat ∧
      Str s.clearCode.toNat t.tbl c (f :: l) := by
  have heoi := h.eoi_eq
  have hlow := h.avail_low
  have hrise := he.avail_le
  cases hd with
  | lit hlt => exact ⟨by omega, by omega, by omega, .base hlt⟩
  | entry hlive hstr =>
    exact ⟨by omega, hlive.2.1, hlive.2.2, hstr.transport h (fun e _ he' => he.tbl_below he') hlive.1⟩
  | kwkwk heq hpv hstr =>
    have hroom : s.avail.toNat < 4096 := heq ▸ c.isLt
    have hnew := he.avail_eq
    rw [if_pos ⟨hpv, hroom⟩] at hnew
    refine ⟨by omega, by omega, by omega, ?_⟩
    have hprev := hstr.transport h (fun e _ he' => he.tbl_below he') (h.prev_live hpv).1
    exact .link (l := s.firstSym :: _) (e := ⟨s.prev, s.firstSym⟩) (by omega) (heq ▸ he.tbl_new hpv hroom) hprev

/-- After a data code the entries below `AVAIL` are as R45 asks: the old ones, and the one added, which names the previous
code and ends in a base code. -/
theorem Launched.entries_of_data {s t : State} {i : Instr} {c : Code} {f : Sym} {l : List Sym} (h : Launched s)
    (hd : DataString s i c f l) (he : DataEffect s c f (f :: l) t) (e : Nat) (h1 : s.clearCode.toNat + 2 ≤ e)
    (h2 : e < t.avail.toNat) : ∃ en, Memory.read t.tbl e = some en ∧ en.pfx.toNat < e ∧
      en.pfx.toNat ≠ s.clearCode.toNat ∧ en.pfx.toNat ≠ s.eoiCode.toNat ∧ en.sfx.toNat < s.clearCode.toNat := by
  by_cases hold : e < s.avail.toNat
  · rw [he.tbl_below hold]
    exact h.entries e h1 hold
  · obtain ⟨hadd, rfl⟩ := he.added (by omega) h2
    obtain ⟨hplt, hpc, hpe⟩ := h.prev_live hadd.1
    exact ⟨⟨s.prev, f⟩, he.tbl_new hadd.1 hadd.2, hplt, hpc, hpe, hd.first_lt h⟩

/-- A data code keeps the invariants of the registers and the table (R40 to R48). -/
theorem Launched.of_data {s t : State} {i : Instr} {c : Code} {f : Sym} {l : List Sym} (h : Launched s)
    (hd : DataString s i c f l) (he : DataEffect s c f (f :: l) t) : Launched t := by
  obtain ⟨hsl, hsh, hmask, haw, haf⟩ := he.width_ok h
  obtain ⟨hlt, hnc, hne, hstr⟩ := hd.after h he
  obtain ⟨hpv, hprev, hfirst⟩ := he.prev_eq
  have hlow := h.avail_low
  have hhigh := h.avail_high
  have havail := he.avail_eq
  have hentries := h.entries_of_data hd he
  have hseeded : ∀ e < s.clearCode.toNat, Memory.read t.tbl e = some { pfx := 0, sfx := BitVec.ofNat 8 e } :=
    fun e hs => (he.tbl_below (by omega)).trans (h.seeded e hs)
  rw [he.frame]
  exact
    { h with
      size_low := hsl
      size_high := hsh
      mask_eq := hmask
      avail_low := Nat.le_trans hlow he.avail_le
      avail_high := by show t.avail.toNat ≤ 4096; rw [havail]; split <;> omega
      avail_width := haw
      avail_fits := haf
      empty_avail := fun hh => absurd (hpv.symm.trans hh) (by decide)
      output_within := by
        have := h.output_within
        show t.outPos.toNat ≤ s.pixCnt.toNat
        rw [he.outPos_eq]
        omega
      prev_live := fun _ => hprev ▸ ⟨hlt, hnc, hne⟩
      prev_string := fun _ => hprev ▸ hfirst ▸ ⟨l, hstr⟩
      seeded := hseeded
      entries := hentries }

/-! ### Each operation keeps the whole invariant -/

theorem tableAdd_tbl_wf {s : State} (f : Sym) (h : Memory.wf s.tbl) : Memory.wf (tableAdd f s).tbl := by
  unfold tableAdd
  split
  · rw [widen_tbl, addEntry_tbl]
    exact Memory.store_wf h _ _
  · exact h

/-- The positions of `OUT` that a data code leaves with a value are those below the new `OUTPOS` (R63, R162). -/
theorem DataEffect.written {s t : State} {c : Code} {f : Sym} {str : List Sym} (he : DataEffect s c f str t)
    (h : ∀ i, (Memory.read s.out i).isSome = true ↔ i < s.outPos.toNat) (i : Nat) :
    (Memory.read t.out i).isSome = true ↔ i < t.outPos.toNat := by
  have hpos := he.outPos_eq
  by_cases hnew : s.outPos.toNat ≤ i ∧ i < t.outPos.toNat
  · rw [he.out_new i hnew.1 hnew.2, List.getElem?_eq_getElem (by omega)]
    simp [hnew.2]
  · rw [he.out_old i (by omega), h i]
    omega

/-- A data code keeps the invariant (R162 to R169). -/
theorem Inv.of_data {s : State} {i : Instr} {c : Code} {f : Sym} {l : List Sym} (h : Inv s) (hr : s.phase = .run)
    (hd : DataString s i c f l) : Inv (dataUpdate c f l s) := by
  have he : DataEffect s c f (f :: l) (dataUpdate c f l s) := dataUpdate_effect s c f (f :: l)
  have hrun := h.when_running hr
  have htbl : Memory.wf (dataUpdate c f l s).tbl := tableAdd_tbl_wf f h.tbl_wf
  have hout : Memory.wf (dataUpdate c f l s).out := by
    rw [notePrev_out, tableAdd_out]
    exact Memory.store_wf h.out_wf _ _
  have hlaunched := (h.launched hr).of_data hd he
  have hwritten := he.written hrun.written
  rw [he.frame] at hlaunched ⊢
  exact
    { h with
      tbl_wf := htbl
      out_wf := hout
      tbl_range := fun e hlarge => (he.tbl_old e (by omega)).trans (h.tbl_range e hlarge)
      when_launched := fun _ => hlaunched
      when_running := fun _ => { hrun with buffer := { hrun.buffer with }, written := hwritten }
      when_stopped := fun hp => absurd (hr.symm.trans hp) (by decide) }

/-- A change of the bit buffer keeps the invariant, where the buffer is true to the stream and as small as the phase asks. -/
theorem Inv.of_buffer {s u : State} (h : Inv s) (hu : SameButBuffer s u) (hok : FillOk u) (hp : s.phase ≠ .idle)
    (hrun : s.phase = .run → u.bitCnt.toNat ≤ 7) (h11 : u.bitCnt.toNat ≤ 11) : Inv u := by
  unfold SameButBuffer at hu
  have hsmall := hok.small
  have hwithin := hok.within
  have hbuf := hok.buf
  generalize u.bitBuf = b at *
  generalize u.bitCnt = n at *
  generalize u.inPos = p at *
  subst hu
  exact
    { h with
      when_launched := fun _ => { h.when_launched hp with buffer_small := hsmall, input_within := hwithin }
      when_running := fun hr => { h.when_running hr with count_small := hrun hr, buffer := hbuf }
      when_stopped := fun hd => { h.when_stopped hd with count_small := h11 } }

/-- A stop keeps the invariant: the positions from `OUTPOS` on are written with zeros (R195). -/
theorem Inv.of_stop {s : State} (h : Inv s) (hr : s.phase = .run) {c : Cause} (hc : c ≠ .none)
    (hfull : c = .complete ↔ s.outPos.toNat = s.pixCnt.toNat) : Inv (stop c s) := by
  have hl := h.launched hr
  have hrun := h.when_running hr
  have hout := hl.output_within
  exact
    { h with
      out_wf := Memory.store_wf h.out_wf _ _
      when_idle := fun hp => nomatch hp
      when_launched := fun _ => { hl with }
      when_running := fun hp => nomatch hp
      when_stopped := fun _ =>
        { cause_some := hc
          cause_complete := hfull
          count_small := Nat.le_trans hrun.count_small (by decide)
          written := fun i => by
            rw [stop_read_out, stop_pixCnt]
            split
            · next hi => simp [hi.2]
            · rw [hrun.written i]; omega
          tail_zero := fun i h1 h2 => by rw [stop_read_out, if_pos ⟨h1, h2⟩] } }

/-- `CLEAR` keeps the invariant (R140). -/
theorem Inv.of_clear {s : State} (h : Inv s) (hr : s.phase = .run) : Inv (resetDictionary s) := by
  have hl := h.launched hr
  have hrun := h.when_running hr
  obtain ⟨hsize, hmask⟩ := fresh_width hl.mincs_high
  have havail : (resetDictionary s).avail.toNat = s.clearCode.toNat + 2 := by
    have := s.clearCode.isLt
    rw [resetDictionary_avail, BitVec.toNat_ofNat]
    omega
  have hlaunched : Launched (resetDictionary s) :=
    launched_of_fresh_dictionary hl.mincs_low hl.mincs_high hl.clear_eq hl.eoi_eq hsize hmask havail rfl hl.buffer_small
      hl.input_within hl.output_within hl.seeded
  exact
    { h with
      when_launched := fun _ => hlaunched
      when_running := fun _ => { hrun with buffer := { hrun.buffer with } }
      when_stopped := fun hp => absurd (hr.symm.trans hp) (by decide) }

/-- The launch values of an accepted `START`, as numbers (R120). -/
theorem launch_codes {m : Nat} (h : m ≤ 8) :
    (BitVec.ofNat 4 m).toNat = m ∧ (BitVec.ofNat 9 (1 <<< m)).toNat = 2 ^ m ∧
      (BitVec.ofNat 9 (1 <<< m + 1)).toNat = 2 ^ m + 1 ∧ (BitVec.ofNat 13 (1 <<< m + 2)).toNat = 2 ^ m + 2 := by
  have h256 : 2 ^ m ≤ 2 ^ 8 := Nat.pow_le_pow_right (by decide) h
  have hpos : 0 < 2 ^ m := Nat.two_pow_pos m
  simp only [BitVec.toNat_ofNat, Nat.one_shiftLeft]
  exact ⟨by omega, by omega, by omega, by omega⟩

/-- An accepted `START` makes a launched block of any one with a supplied input. -/
theorem launched_of_launch {s : State} {m : Byte} (n : BitVec 32) (len : Nat) (h2 : 2 ≤ m.toNat) (h8 : m.toNat ≤ 8) :
    Launched (launch m n len s) := by
  obtain ⟨hm, hclear, heoi, havail⟩ := launch_codes h8
  obtain ⟨hsize, hmask⟩ := fresh_width h8
  refine launched_of_fresh_dictionary ?_ ?_ ?_ ?_ ?_ ?_ ?_ rfl (by simp) (Nat.zero_le _) (Nat.zero_le _) ?_
  · rw [launch_mincs, hm]; exact h2
  · rw [launch_mincs, hm]; exact h8
  · rw [launch_clearCode, launch_mincs, hclear, hm]
  · rw [launch_eoiCode, launch_clearCode, heoi, hclear]
  · rw [launch_codeSize, launch_mincs, hsize, hm]
  · rw [launch_codeMask, launch_mincs, hmask, hm]
  · rw [launch_avail, launch_clearCode, havail, hclear]
  · intro c hc
    rw [launch_clearCode, hclear] at hc
    rw [launch_read_tbl, Nat.one_shiftLeft, if_pos hc]

/-- An accepted `START` brings a run that meets the invariant (R120, R122). -/
theorem Inv.of_launch {s : State} (h : Inv s) {m : Byte} (n : BitVec 32) {len : Nat} (h2 : 2 ≤ m.toNat)
    (h8 : m.toNat ≤ 8) (hlen : s.suppliedBytes = len) : Inv (launch m n len s) := by
  have h256 : 2 ^ m.toNat ≤ 2 ^ 8 := Nat.pow_le_pow_right (by decide) h8
  exact
    { h with
      tbl_wf := Memory.store_wf h.tbl_wf _ _
      out_wf := List.Pairwise.nil
      tbl_range := fun e he => by
        rw [launch_read_tbl, Nat.one_shiftLeft, if_neg (by omega)]
        exact h.tbl_range e he
      when_idle := fun hp => nomatch hp
      when_launched := fun _ => launched_of_launch n len h2 h8
      when_running := fun _ =>
        { input_whole := hlen
          cause_none := rfl
          count_small := Nat.zero_le _
          buffer := ⟨Nat.zero_le _, fun j hj => absurd hj (Nat.not_lt_zero j)⟩
          written := fun i => by simp }
      when_stopped := fun hp => nomatch hp }

/-- The host's coming moves are no part of the invariant. -/
theorem Inv.of_host {s : State} (h : Inv s) (rest : List HostMove) : Inv { s with host := rest } :=
  { h with
    when_launched := fun hp => { h.when_launched hp with }
    when_running := fun hp => let hr := h.when_running hp; { hr with buffer := { hr.buffer with } }
    when_stopped := fun hp => { h.when_stopped hp with } }

/-- Outside a run the host may put any sequence of bytes in `IN` (R231, R234). -/
theorem Inv.of_writeIn {s : State} (h : Inv s) (hp : s.phase ≠ .run) (bytes : List Byte) :
    Inv { s with inp := Memory.cells 0 bytes } :=
  { h with
    inp_wf := Memory.cells_wf _ _
    inp_seq := ⟨bytes, rfl⟩
    when_launched := fun hl => { h.when_launched hl with }
    when_running := fun hr => absurd hr hp
    when_stopped := fun hd => { h.when_stopped hd with } }

/-- Settles O33: nothing is launched and every memory is empty. -/
theorem resetMeetsTheInvariant : Obligations.ResetMeetsTheInvariant where
  tbl_wf := State.reset_wf.1
  inp_wf := State.reset_wf.2.1
  inp_seq := ⟨[], rfl⟩
  out_wf := State.reset_wf.2.2
  tbl_range := fun _ _ => rfl
  stack_empty := rfl
  when_idle := fun _ => rfl
  when_launched := fun h => absurd rfl h
  when_running := fun h => nomatch h
  when_stopped := fun h => nomatch h

/-! ### The step keeps the invariant -/

/-- The state that a fetched code leaves meets the invariant, still in the run (R126). -/
theorem Inv.of_fetch {s u : State} {c : Code} (h : Inv s) (hr : s.phase = .run) (hf : fetch s = .code c u) :
    Inv u ∧ u.phase = .run ∧ u.outPos = s.outPos ∧ u.pixCnt = s.pixCnt := by
  obtain ⟨hok, _, hcnt, hsame⟩ :=
    (fetch_ok (h.fillOk hr) (h.when_running hr).count_small (h.launched hr).size_high).1 c u hf
  refine ⟨h.of_buffer hsame hok (by rw [hr]; decide) (fun _ => hcnt) (by omega), ?_, ?_, ?_⟩
  all_goals rw [hsame]
  exact hr

/-- The operation of the class of a code keeps the invariant, with the output not full. -/
theorem Inv.of_exec {s t : State} {c : Code} {i : Instr} (h : Inv s) (hr : s.phase = .run) (hout : s.outPos ≠ s.pixCnt)
    (hc : classify s.codeRegs c = .ok i) (hx : exec i s = .next t) : Inv t := by
  have hnot : s.outPos.toNat ≠ s.pixCnt.toNat := fun he => hout (BitVec.eq_of_toNat_eq he)
  rcases (h.launched hr).dataString_of_classify hc with rfl | rfl | rfl | ⟨f, l, hd⟩
  · cases hx; exact h.of_clear hr
  · cases hx; exact h.of_stop hr (by decide) ⟨fun hh => (nomatch hh), fun he => absurd he hnot⟩
  · cases hx; exact h.of_stop hr (by decide) ⟨fun hh => (nomatch hh), fun he => absurd he hnot⟩
  · rw [hd.exec_eq (h.launched hr) h.stack_empty] at hx
    cases hx
    exact h.of_data hr hd

theorem Inv.of_codeStep {s t : State} (h : Inv s) (hr : s.phase = .run) (hs : codeStep s = .next t) : Inv t := by
  rcases codeStep_next hs with ⟨hfull, rfl⟩ | ⟨hout, u, hf, rfl⟩ | ⟨hout, c, u, i, hf, hc, hx⟩
  · exact h.of_stop hr (by decide) ⟨fun _ => by rw [hfull], fun _ => rfl⟩
  · obtain ⟨hok, _, hcnt, _, _, hsame⟩ :=
      (fetch_ok (h.fillOk hr) (h.when_running hr).count_small (h.launched hr).size_high).2 u hf
    have hstop : Inv (stop .exhausted s) :=
      h.of_stop hr (by decide) ⟨fun hh => (nomatch hh), fun he => absurd (BitVec.eq_of_toNat_eq he) hout⟩
    exact hstop.of_buffer (congrArg (stop .exhausted) hsame) { hok with buf := { hok.buf with } } (nofun) (nofun) hcnt
  · obtain ⟨hu, hru, hop, hpc⟩ := h.of_fetch hr hf
    exact hu.of_exec hru (by rw [hop, hpc]; exact hout) hc hx

/-- Settles O34: each operation that a step can be keeps the invariant. -/
theorem stepKeepsTheInvariant : Obligations.StepKeepsTheInvariant := by
  intro s t h hs
  rcases step_cases hs with ⟨rest, hb⟩ | ⟨m, n, len, rest, _, hx⟩ | ⟨bytes, rest, hp, rfl⟩ | ⟨rest, _, rfl⟩
  · have hr := h.of_host rest
    by_cases hp : State.phase { s with host := rest } = .run
    · exact hr.of_codeStep hp (blockStep_of_run hp ▸ hb)
    · rw [blockStep_of_rest hp] at hb
      cases hb
      exact hr
  · rcases execStart_cases hx with ⟨_, rfl⟩ | ⟨_, h2, h8, hlen, rfl⟩
    · exact h.of_host rest
    · exact (h.of_host rest).of_launch n h2 h8 hlen
  · exact (h.of_host rest).of_writeIn hp bytes
  · exact resetMeetsTheInvariant.of_host rest

end Sys2Proof.Machine
end

section
/-! PROOFS. The status registers (R21 to R23, R39). -/

namespace Sys2Proof.Machine

/-- Settles O30: each field of the reset state is written out. -/
theorem resetState : Obligations.ResetState :=
  ⟨rfl, rfl, rfl, rfl, rfl, fun _ => rfl, fun _ => rfl, fun _ => rfl⟩

theorem State.malformed_iff (s : State) : s.malformed = true ↔ s.cause = .invalid ∨ s.cause = .exhausted := by
  simp [State.malformed]

theorem State.short_iff (s : State) : s.short = true ↔ s.phase = .done ∧ s.outPos.toNat < s.pixCnt.toNat := by
  simp [State.short]

/-- There is a cause exactly after a stop (R21, R22). -/
theorem Inv.done_iff {s : State} (h : Inv s) : s.phase = .done ↔ s.cause ≠ .none := by
  cases hp : s.phase with
  | idle => simp [h.when_idle hp]
  | run => simp [(h.when_running hp).cause_none]
  | done => simp [(h.when_stopped hp).cause_some]

/-- `SHORT` is 1 exactly after the stops other than `COMPLETE` (R23, R190 to R193). -/
theorem Inv.short_iff_cause {s : State} (h : Inv s) :
    s.short = true ↔ s.cause ≠ .none ∧ s.cause ≠ .complete := by
  rw [s.short_iff, h.done_iff]
  refine and_congr_right fun hc => ?_
  have hd := h.done_iff.mpr hc
  have hout := (h.when_launched (by rw [hd]; decide)).output_within
  rw [Ne, (h.when_stopped hd).cause_complete]
  omega

/-- Settles O41: the flags by their definitions and the causes of a stop, the host's numbers by the phases. -/
theorem statusFollowsTheCause : Obligations.StatusFollowsTheCause := by
  intro s h
  have hshort := h.short_iff_cause
  have hdone := h.done_iff
  refine ⟨s.malformed_iff, s.short_iff, ?_, ?_, ?_, ?_, ?_⟩
  · rw [hshort]
    cases s.cause <;> simp
  · have h2 : s.hostStatus.phase = 2 ↔ s.phase = .done := by
      cases hp : s.phase <;> simp [State.hostStatus, hp, Phase.bits]
    rw [h2, hdone, hshort]
    cases s.cause <;> simp
  · have h01 : s.hostStatus.phase = 0 ∨ s.hostStatus.phase = 1 ↔ s.phase ≠ .done := by
      cases hp : s.phase <;> simp [State.hostStatus, hp, Phase.bits]
    rw [h01, Ne, hdone, not_not]
  · cases hp : s.phase <;> simp [State.hostStatus, hp, Phase.bits]
  · cases hc : s.cause <;> simp [State.hostStatus, hc, Cause.bits]

end Sys2Proof.Machine
end

section
/-! PROOFS. Hidden state (R38): the operations on two states equal but for it. -/

namespace Sys2Proof.Machine

/-- `s` with other hidden contents. -/
def State.withHidden (tb : List (Nat × Entry)) (p : Code) (f : Sym) (s : State) : State :=
  { s with tbl := tb, prev := p, firstSym := f }

/-- States that a run cannot tell apart differ in hidden contents only. -/
theorem SameRun.eq_withHidden {s t : State} (h : SameRun s t) : t = s.withHidden t.tbl t.prev t.firstSym := h.rest

/-- What filling the bit buffer ends in, on a state with other hidden contents. -/
def Filled.withHidden (tb : List (Nat × Entry)) (p : Code) (f : Sym) : Filled → Filled
  | .ready s => .ready (s.withHidden tb p f)
  | .ended s => .ended (s.withHidden tb p f)
  | .absent i => .absent i

/-! One equation per case of the loop of R126. -/

theorem fillBuffer_of_enough {n : Nat} {s : State} (h : s.codeSize.toNat ≤ s.bitCnt.toNat) :
    fillBuffer (n + 1) s = .ready s := if_pos h

theorem fillBuffer_of_end {n : Nat} {s : State} (h : ¬ s.codeSize.toNat ≤ s.bitCnt.toNat) (he : s.inPos = s.inLen) :
    fillBuffer (n + 1) s = .ended s := (if_neg h).trans (if_pos he)

theorem fillBuffer_of_read {n : Nat} {s : State} (h : ¬ s.codeSize.toNat ≤ s.bitCnt.toNat) (he : s.inPos ≠ s.inLen) :
    fillBuffer (n + 1) s =
      (Memory.read s.inp s.inPos).elim (.absent s.inPos) (fun b => fillBuffer n (loadByte b s)) := by
  refine (if_neg h).trans ((if_neg he).trans ?_)
  cases Memory.read s.inp s.inPos <;> rfl

theorem fillBuffer_withHidden (tb : List (Nat × Entry)) (p : Code) (f : Sym) (n : Nat) (s : State) :
    fillBuffer n (s.withHidden tb p f) = (fillBuffer n s).withHidden tb p f := by
  induction n generalizing s with
  | zero => rfl
  | succ n ih =>
    by_cases h : s.codeSize.toNat ≤ s.bitCnt.toNat
    · rw [fillBuffer_of_enough h, fillBuffer_of_enough (s := s.withHidden tb p f) h]
      rfl
    · by_cases he : s.inPos = s.inLen
      · rw [fillBuffer_of_end h he, fillBuffer_of_end (s := s.withHidden tb p f) h he]
        rfl
      · rw [fillBuffer_of_read h he, fillBuffer_of_read (s := s.withHidden tb p f) h he]
        show (Memory.read s.inp s.inPos).elim _ _ = _
        cases Memory.read s.inp s.inPos with
        | none => rfl
        | some b => exact ih (loadByte b s)

/-- The fetch of a code, and the end of the input, are the same whatever the hidden contents are. -/
theorem fetch_withHidden (tb : List (Nat × Entry)) (p : Code) (f : Sym) {s u : State} :
    (∀ c, fetch s = .code c u → fetch (s.withHidden tb p f) = .code c (u.withHidden tb p f)) ∧
    (fetch s = .ended u → fetch (s.withHidden tb p f) = .ended (u.withHidden tb p f)) := by
  unfold fetch
  rw [fillBuffer_withHidden]
  cases fillBuffer 2 s with
  | ready v => exact ⟨fun c h => (by cases h; rfl), fun h => (nomatch h)⟩
  | ended v => exact ⟨fun c h => (nomatch h), fun h => (by cases h; rfl)⟩
  | absent i => exact ⟨fun c h => (nomatch h), fun h => (nomatch h)⟩

/-! ### Each operation keeps two states equal but for hidden state -/

theorem SameRun.codeRegs {s t : State} (h : SameRun s t) : t.codeRegs = s.codeRegs := by rw [h.rest]; rfl

theorem SameRun.of_host {s t : State} (h : SameRun s t) (rest : List HostMove) :
    SameRun { s with host := rest } { t with host := rest } :=
  { h with rest := congrArg (fun u : State => { u with host := rest }) h.rest }

theorem SameRun.of_stop {s t : State} (h : SameRun s t) (c : Cause) : SameRun (stop c s) (stop c t) :=
  { h with rest := congrArg (stop c) h.rest }

/-- `CLEAR` empties the previous code and hides every entry above the seeds (R140). -/
theorem SameRun.of_clear {s t : State} (h : SameRun s t) : SameRun (resetDictionary s) (resetDictionary t) where
  tbl_live := by
    intro e he
    have := s.clearCode.isLt
    rw [resetDictionary_clearCode, resetDictionary_avail, BitVec.toNat_ofNat] at he
    exact h.tbl_live e (.inl (by omega))
  prev_eq := fun hh => nomatch hh
  rest := congrArg resetDictionary h.rest

/-- A launch empties the previous code, writes the seeds and hides every other entry (R120, R122). -/
theorem SameRun.of_launch {s t : State} (h : SameRun s t) {m : Byte} (n : BitVec 32) (len : Nat) (h8 : m.toNat ≤ 8) :
    SameRun (launch m n len s) (launch m n len t) where
  tbl_live := by
    intro e he
    obtain ⟨_, hclear, _, havail⟩ := launch_codes h8
    rw [launch_clearCode, launch_avail, hclear, havail] at he
    rw [launch_read_tbl, launch_read_tbl, Nat.one_shiftLeft, if_pos (by omega), if_pos (by omega)]
  prev_eq := fun hh => nomatch hh
  rest := by
    have := congrArg (launch m n len) h.rest
    exact this

/-- A fetched code leaves the two states equal but for hidden state. -/
theorem SameRun.of_buffer {s t u v : State} (h : SameRun s t) (hu : SameButBuffer s u)
    (hv : v = u.withHidden t.tbl t.prev t.firstSym) : SameRun u v := by
  subst hv
  unfold SameButBuffer at hu
  generalize u.bitBuf = b at *
  generalize u.bitCnt = k at *
  generalize u.inPos = p at *
  subst hu
  exact { h with rest := rfl }

/-- The string of a live code is read off live entries only. -/
theorem SameRun.str {s t : State} (h : SameRun s t) (hl : Launched s) {c : Code} {l : List Sym}
    (hs : Str s.clearCode.toNat s.tbl c l) (hc : c.toNat < s.avail.toNat) : Str s.clearCode.toNat t.tbl c l :=
  hs.transport hl (fun e h1 h2 => h.tbl_live e (.inr ⟨h1, h2⟩)) hc

/-- A data code emits the same string from states equal but for hidden state. -/
theorem DataString.of_sameRun {s t : State} {i : Instr} {c : Code} {f : Sym} {l : List Sym} (hd : DataString s i c f l)
    (hl : Launched s) (h : SameRun s t) : DataString t i c f l := by
  have hclear : t.clearCode = s.clearCode := by rw [h.rest]
  have heoi : t.eoiCode = s.eoiCode := by rw [h.rest]
  have havail : t.avail = s.avail := by rw [h.rest]
  have hpv : t.prevV = s.prevV := by rw [h.rest]
  cases hd with
  | lit hlt => exact .lit (by rwa [hclear])
  | entry hlive hstr =>
    refine .entry (by rw [State.liveCode, hclear, heoi, havail]; exact hlive) ?_
    rw [hclear]
    exact h.str hl hstr hlive.1
  | kwkwk heq hprev hstr =>
    obtain ⟨hp, hf⟩ := h.prev_eq hprev
    rw [← hf]
    refine .kwkwk (by rwa [havail]) (by rwa [hpv]) ?_
    rw [hclear, hp, hf]
    exact h.str hl hstr (hl.prev_live hprev).1

theorem widen_withHidden (tb : List (Nat × Entry)) (p : Code) (g : Sym) (s : State) :
    widen (s.withHidden tb p g) = (widen s).withHidden tb p g := by
  by_cases hg : s.avail.toNat &&& s.codeMask.toNat = 0 ∧ s.codeSize.toNat < Config.maxCodeWidth
  · exact (if_pos hg).trans (congrArg (State.withHidden tb p g) (if_pos hg : widen s = _).symm)
  · exact (if_neg hg).trans (congrArg (State.withHidden tb p g) (if_neg hg : widen s = _).symm)

/-- Whether an entry is added, where, and how the width grows does not depend on hidden contents (R163, R164). -/
theorem tableAdd_withHidden (tb : List (Nat × Entry)) (p : Code) (g f : Sym) (s : State) :
    ∃ tb', tableAdd f (s.withHidden tb p g) = (tableAdd f s).withHidden tb' p g := by
  by_cases hadd : s.prevV = true ∧ s.avail.toNat < Config.tableCap
  · have hs : tableAdd f s = widen (addEntry f s) := if_pos hadd
    have ht : tableAdd f (s.withHidden tb p g) = widen (addEntry f (s.withHidden tb p g)) := if_pos hadd
    rw [hs, ht]
    exact ⟨_, widen_withHidden (Memory.store tb s.avail.toNat [{ pfx := p, sfx := f }]) p g (addEntry f s)⟩
  · have hs : tableAdd f s = s := if_neg hadd
    have ht : tableAdd f (s.withHidden tb p g) = s.withHidden tb p g := if_neg hadd
    rw [hs, ht]
    exact ⟨tb, rfl⟩

/-- What a data code writes outside the table does not depend on hidden contents. -/
theorem dataUpdate_withHidden (tb : List (Nat × Entry)) (p : Code) (g : Sym) (c : Code) (f : Sym) (l : List Sym)
    (s : State) :
    ∃ tb', dataUpdate c f l (s.withHidden tb p g) = (dataUpdate c f l s).withHidden tb' c f := by
  obtain ⟨tb', h⟩ := tableAdd_withHidden tb p g f (emit (f :: l) s)
  exact ⟨tb', congrArg (notePrev c f) h⟩

/-- A data code keeps two states equal but for hidden state: the entry it adds holds what both hold (R163). -/
theorem SameRun.of_data {s t : State} (h : SameRun s t) (c : Code) (f : Sym) (l : List Sym) :
    SameRun (dataUpdate c f l s) (dataUpdate c f l t) := by
  have he : DataEffect s c f (f :: l) (dataUpdate c f l s) := dataUpdate_effect s c f (f :: l)
  have het : DataEffect t c f (f :: l) (dataUpdate c f l t) := dataUpdate_effect t c f (f :: l)
  have hpv : t.prevV = s.prevV := by rw [h.rest]
  have havail : t.avail = s.avail := by rw [h.rest]
  refine ⟨fun e hlive => ?_, fun _ => ⟨rfl, rfl⟩, ?_⟩
  · have hclear : (dataUpdate c f l s).clearCode = s.clearCode := by simp
    rw [hclear] at hlive
    by_cases hadd : s.prevV = true ∧ s.avail.toNat < 4096 ∧ e = s.avail.toNat
    · obtain ⟨hp, hroom, rfl⟩ := hadd
      have hnew := het.tbl_new (hpv ▸ hp) (havail ▸ hroom)
      rw [havail, (h.prev_eq hp).1] at hnew
      rw [he.tbl_new hp hroom, hnew]
    · rw [he.tbl_old e hadd, het.tbl_old e (by rw [hpv, havail]; exact hadd)]
      refine h.tbl_live e (hlive.imp_right fun ⟨h1, h2⟩ => ⟨h1, ?_⟩)
      by_contra hge
      obtain ⟨hroom, heq⟩ := he.added (by omega) h2
      exact hadd ⟨hroom.1, hroom.2, heq⟩
  · obtain ⟨tb', hhid⟩ := dataUpdate_withHidden t.tbl t.prev t.firstSym c f l s
    rw [← h.eq_withHidden] at hhid
    rw [hhid]
    rfl

/-- The operation of the class of a code keeps two states equal but for hidden state. -/
theorem SameRun.of_exec {s t s' : State} {c : Code} {i : Instr} (h : SameRun s t) (hs : Launched s) (ht : Launched t)
    (hks : s.stk = []) (hkt : t.stk = []) (hc : classify s.codeRegs c = .ok i) (hx : exec i s = .next s') :
    ∃ t', exec i t = .next t' ∧ SameRun s' t' := by
  rcases hs.dataString_of_classify hc with rfl | rfl | rfl | ⟨f, l, hd⟩
  · cases hx; exact ⟨_, rfl, h.of_clear⟩
  · cases hx; exact ⟨_, rfl, h.of_stop _⟩
  · cases hx; exact ⟨_, rfl, h.of_stop _⟩
  · rw [hd.exec_eq hs hks] at hx
    cases hx
    exact ⟨_, (hd.of_sameRun hs h).exec_eq ht hkt, h.of_data c f l⟩

/-! ### The step -/

theorem SameRun.of_codeStep {s t s' : State} (h : SameRun s t) (hs : Inv s) (ht : Inv t) (hr : s.phase = .run)
    (hx : codeStep s = .next s') : ∃ t', codeStep t = .next t' ∧ SameRun s' t' := by
  have hrt : t.phase = .run := by rw [h.rest]; exact hr
  have hout : t.outPos = s.outPos := by rw [h.rest]
  have hpix : t.pixCnt = s.pixCnt := by rw [h.rest]
  rcases codeStep_next hx with ⟨hfull, rfl⟩ | ⟨hnot, u, hf, rfl⟩ | ⟨hnot, c, u, i, hf, hc, hxu⟩
  · exact ⟨_, codeStep_of_full (by rw [hout, hpix, hfull]), h.of_stop _⟩
  · have hft := (fetch_withHidden t.tbl t.prev t.firstSym).2 hf
    rw [← h.eq_withHidden] at hft
    exact ⟨_, codeStep_of_ended (by rwa [hout, hpix]) hft, (h.of_buffer ((fetch_frame s).2 u hf) rfl).of_stop _⟩
  · have hft := (fetch_withHidden t.tbl t.prev t.firstSym).1 c hf
    rw [← h.eq_withHidden] at hft
    obtain ⟨hu, hru, _⟩ := hs.of_fetch hr hf
    obtain ⟨hv, hrv, _⟩ := ht.of_fetch hrt hft
    have huv := h.of_buffer ((fetch_frame s).1 c u hf) rfl
    obtain ⟨t', hxt, hst⟩ :=
      huv.of_exec (hu.launched hru) (hv.launched hrv) hu.stack_empty hv.stack_empty hc hxu
    exact ⟨t', (codeStep_of_code (by rwa [hout, hpix]) hft (huv.codeRegs ▸ hc)).trans hxt, hst⟩

theorem SameRun.of_blockStep {s t s' : State} (h : SameRun s t) (hs : Inv s) (ht : Inv t)
    (hx : blockStep s = .next s') : ∃ t', blockStep t = .next t' ∧ SameRun s' t' := by
  have hphase : t.phase = s.phase := by rw [h.rest]
  by_cases hr : s.phase = .run
  · rw [blockStep_of_run hr] at hx
    rw [blockStep_of_run (hphase.trans hr)]
    exact h.of_codeStep hs ht hr hx
  · rw [blockStep_of_rest hr] at hx
    cases hx
    exact ⟨t, blockStep_of_rest (hphase ▸ hr), h⟩

theorem SameRun.of_start {s t s' : State} (h : SameRun s t) {m : Byte} {n : BitVec 32} {len : Nat}
    (hx : execStart m n len s = .next s') : ∃ t', execStart m n len t = .next t' ∧ SameRun s' t' := by
  have hphase : t.phase = s.phase := by rw [h.rest]
  have hinp : t.inp = s.inp := by rw [h.rest]
  rcases execStart_cases hx with ⟨hr, rfl⟩ | ⟨hr, h2, h8, hlen, rfl⟩
  · exact ⟨t, if_pos (hphase.trans hr), h⟩
  · exact ⟨_, execStart_launch n (hphase ▸ hr) h2 h8 ((congrArg List.length hinp).trans hlen), h.of_launch n len h8⟩

theorem SameRun.of_writeIn {s t s' : State} (h : SameRun s t) {bytes : List Byte}
    (hx : hostWriteIn bytes s = .next s') : ∃ t', hostWriteIn bytes t = .next t' ∧ SameRun s' t' := by
  have hphase : t.phase = s.phase := by rw [h.rest]
  obtain ⟨hr, rfl⟩ := hostWriteIn_next hx
  exact ⟨_, if_neg (hphase ▸ hr),
    { h with rest := congrArg (fun u : State => { u with inp := Memory.cells 0 bytes }) h.rest }⟩

/-- Settles O45, move by move: whatever the step is, both states can make it and stay equal but for hidden state. -/
theorem hiddenStateNeverShows : Obligations.HiddenStateNeverShows := by
  intro s t s' hs ht h hx
  have hhost : t.host = s.host := by rw [h.rest]
  cases hh : s.host with
  | nil =>
    rw [step_of_no_host hh] at hx
    rw [step_of_no_host (hhost.trans hh)]
    exact h.of_blockStep hs ht hx
  | cons m rest =>
    rw [step_of_host hh] at hx
    rw [step_of_host (hhost.trans hh)]
    have h' := h.of_host rest
    cases m with
    | wait => exact h'.of_blockStep (hs.of_host rest) (ht.of_host rest) hx
    | start a n len => exact h'.of_start hx
    | writeIn bytes => exact h'.of_writeIn hx
    | reset =>
      cases hx
      exact ⟨_, rfl, ⟨fun _ _ => rfl, fun _ => ⟨rfl, rfl⟩, rfl⟩⟩

end Sys2Proof.Machine
end

section
/-! PROOFS. The bit stream (R69, R71): a few words of the spec, and the fetch on any supplied input. -/

namespace Sys2Proof.Machine

/-- Settles O7, by running the decoder on each word. -/
theorem wordsOfTheSpecDecode : Obligations.WordsOfTheSpecDecode :=
  ⟨rfl, rfl, rfl, rfl, rfl, rfl, rfl, rfl, rfl⟩

/-- On a supplied input the fetch misses no byte (R231). -/
theorem Supplied.fetch_ne_absent {s : State} (h : Supplied s) (hwithin : s.inPos ≤ s.inLen) (i : Nat) :
    fetch s ≠ .absent i := by
  intro hf
  obtain ⟨hlt, hnone⟩ := fetch_absent hwithin hf
  exact absurd (h i hlt) (by simp [hnone])

/-- On a supplied input with the bits of a whole code left, the fetch answers a code (R126, R127). -/
theorem FillOk.fetch_of_supplied {s : State} (h : FillOk s) (hcount : s.bitCnt.toNat ≤ 7)
    (hsize : s.codeSize.toNat ≤ 12) (hsup : Supplied s) (hleft : s.bitPos + s.codeSize.toNat ≤ 8 * s.inLen) :
    ∃ c u, fetch s = .code c u := by
  cases hf : fetch s with
  | code c u => exact ⟨c, u, rfl⟩
  | ended u =>
    obtain ⟨hok, hpos, _, hfew, hend, _⟩ := (fetch_ok h hcount hsize).2 u hf
    have hloaded := hok.buf.loaded
    rw [State.bitPos, hend] at hpos
    rw [hend] at hloaded
    omega
  | absent i => exact absurd hf (hsup.fetch_ne_absent h.within i)

/-- Settles O8: on a supplied input the fetch answers a code, and what it answers is the stream's bits. -/
theorem fetchReadsTheStream : Obligations.FetchReadsTheStream := by
  intro s hbuf hsmall hcount hsize hmask hwithin hsup hleft
  have h : FillOk s := ⟨hbuf, hsmall, hwithin⟩
  obtain ⟨c, u, hf⟩ := h.fetch_of_supplied hcount hsize hsup hleft
  obtain ⟨hlt, hbits⟩ := fetch_code_bits h hsize hmask hf
  obtain ⟨hok, hpos, hcount', hsame⟩ := (fetch_ok h hcount hsize).1 c u hf
  exact ⟨c, u, hf, hlt, hbits, hpos, hcount', hok.within, hok.buf, hok.small, hsame⟩

end Sys2Proof.Machine
end

section
/-! PROOFS. Progress: every code has a class, and in a run every step completes (R48, R196). -/

namespace Sys2Proof

/-- Under legal registers every code has a class: the conditions of R95 leave no number out (R48). -/
theorem CodeRegs.Legal.classify_total {r : CodeRegs} (h : r.Legal) (c : Code) : ∃ i, classify r c = .ok i := by
  obtain ⟨heoi, -, -, -, -⟩ := h
  unfold classify
  split_ifs with hclear hend hinvalid hlit hentry hkwkwk
  case neg =>
    have hrest : c.toNat = r.avail.toNat := by omega
    have hprev : r.prevV = true := eq_true_of_ne_false fun hp => hinvalid (.inr ⟨hrest, hp⟩)
    exact absurd ⟨hrest, hprev⟩ hkwkwk
  all_goals exact ⟨_, rfl⟩

namespace Machine

/-- The registers of a launched block are legal (R25, R40, R41, R97). -/
theorem Launched.codeRegs_legal {s : State} (h : Launched s) : s.codeRegs.Legal :=
  ⟨h.eoi_eq, h.avail_low, h.avail_high, h.size_high, h.empty_avail⟩

/-- In a run the input is supplied (R231). -/
theorem Inv.supplied {s : State} (h : Inv s) (hr : s.phase = .run) : Supplied s := fun i => (h.read_inp hr i).mpr

/-- In a run the operation of a classified code completes: a string that is walked exists and fits the stack (R47). -/
theorem Inv.exec_completes {s : State} (h : Inv s) (hr : s.phase = .run) {c : Code} {i : Instr}
    (hc : classify s.codeRegs c = .ok i) : ∃ t, exec i s = .next t := by
  rcases (h.launched hr).dataString_of_classify hc with rfl | rfl | rfl | ⟨f, l, hd⟩
  · exact ⟨_, rfl⟩
  · exact ⟨_, rfl⟩
  · exact ⟨_, rfl⟩
  · exact ⟨_, hd.exec_eq (h.launched hr) h.stack_empty⟩

/-- Settles O36: of all that a step in a run can be, the refusals cannot happen and the operation of a class completes. -/
theorem runNeverFaults : Obligations.RunNeverFaults := by
  intro s h hr hh
  rw [step_run hh hr]
  rcases codeStep_cases s with ⟨_, hs⟩ | ⟨_, u, _, hs⟩ | ⟨_, i, hf, _⟩ | ⟨_, c, u, i, hf, hc, hs⟩ |
      ⟨_, c, u, e, hf, hc, _⟩
  · exact ⟨_, hs⟩
  · exact ⟨_, hs⟩
  · exact absurd hf ((h.supplied hr).fetch_ne_absent (h.launched hr).input_within i)
  · obtain ⟨hu, hru, _⟩ := h.of_fetch hr hf
    rw [hs]
    exact hu.exec_completes hru hc
  · obtain ⟨hu, hru, _⟩ := h.of_fetch hr hf
    obtain ⟨i, hi⟩ := (hu.launched hru).codeRegs_legal.classify_total c
    exact nomatch hi.symm.trans hc

end Machine
end Sys2Proof
end

section
/-! PROOFS. The output of a run: written once, in order, and complete at its end (R32, R63, R64, R195). -/

namespace Sys2Proof.Machine

/-- `t` has what `s` has written of `OUT`, and is no less far (R63). -/
abbrev KeepsOutput (s t : State) : Prop :=
  (∀ i < s.outPos.toNat, Memory.read t.out i = Memory.read s.out i) ∧ s.outPos.toNat ≤ t.outPos.toNat

theorem SameButBuffer.outPos {s u : State} (h : SameButBuffer s u) : u.outPos = s.outPos := by rw [h]

theorem SameButBuffer.out {s u : State} (h : SameButBuffer s u) : u.out = s.out := by rw [h]

/-- A stop fills from `OUTPOS` on (R195). -/
theorem stop_keepsOutput (c : Cause) (s : State) : KeepsOutput s (stop c s) :=
  ⟨fun i hi => by rw [stop_read_out, if_neg (by omega)], Nat.le_refl _⟩

/-- A data code writes from `OUTPOS` on (R162). -/
theorem DataEffect.keepsOutput {s t : State} {c : Code} {f : Sym} {str : List Sym} (he : DataEffect s c f str t) :
    KeepsOutput s t :=
  ⟨fun i hi => he.out_old i (.inl hi), by rw [he.outPos_eq]; exact Nat.le_add_right _ _⟩

theorem CodeDone.keepsOutput {u t : State} (h : CodeDone u t) : KeepsOutput u t := by
  cases h with
  | stop _ => exact stop_keepsOutput _ u
  | clear => exact ⟨fun _ _ => rfl, Nat.le_refl _⟩
  | data hd =>
    obtain ⟨f, l, rfl⟩ := hd
    exact (dataUpdate_effect { u with stk := [] } _ f (f :: l)).keepsOutput

/-- A step of a run keeps what is written: the fetch writes nothing, and all else writes from `OUTPOS` on. -/
theorem codeStep_keepsOutput {s t : State} (h : codeStep s = .next t) : KeepsOutput s t := by
  have hfetch {u : State} (hu : SameButBuffer s u) (hk : KeepsOutput u t) : KeepsOutput s t := by
    simpa only [KeepsOutput, hu.outPos, hu.out] using hk
  rcases codeStep_done h with ⟨_, rfl⟩ | ⟨u, hf, rfl⟩ | ⟨c, u, hf, hd⟩
  · exact stop_keepsOutput _ s
  · exact hfetch ((fetch_frame s).2 u hf) (stop_keepsOutput _ u)
  · exact hfetch ((fetch_frame s).1 c u hf) hd.keepsOutput

/-- A step of a run leaves a launched block, running or stopped. -/
theorem codeStep_launched {s t : State} (h : Inv s) (hr : s.phase = .run) (hs : codeStep s = .next t) : Launched t := by
  refine (h.of_codeStep hr hs).when_launched fun hidle => ?_
  rcases codeStep_phase hs with hp | ⟨hp, _⟩
  · exact nomatch (hidle.symm.trans hp).trans hr
  · exact nomatch hidle.symm.trans hp

/-- Settles O42: the step writes from `OUTPOS` on, and the invariant after it bounds `OUTPOS`. -/
theorem outputIsWrittenOnceInOrder : Obligations.OutputIsWrittenOnceInOrder := by
  intro s t h hr hh hs
  rw [step_run hh hr] at hs
  obtain ⟨hold, hle⟩ := codeStep_keepsOutput hs
  exact ⟨hold, hle, (codeStep_launched h hr hs).output_within⟩

/-! ### The end of a run -/

/-- The operation of a code that ends the run is a stop, which leaves `OUTPOS`. -/
theorem CodeDone.outPos_of_done {u t : State} (h : CodeDone u t) (hr : u.phase = .run) (hd : t.phase = .done) :
    t.outPos = u.outPos := by
  cases h with
  | stop _ => rfl
  | clear => rfl
  | data hdata =>
    obtain ⟨f, l, rfl⟩ := hdata
    simp [hr] at hd

/-- The step that ends a run leaves `OUTPOS` at the count of decoded indices (R195). -/
theorem codeStep_outPos_of_done {s t : State} (hr : s.phase = .run) (h : codeStep s = .next t) (hd : t.phase = .done) :
    t.outPos = s.outPos := by
  rcases codeStep_done h with ⟨_, rfl⟩ | ⟨u, hf, rfl⟩ | ⟨c, u, hf, hdone⟩
  · rfl
  · exact ((fetch_frame s).2 u hf).outPos
  · have hu := (fetch_frame s).1 c u hf
    exact (hdone.outPos_of_done (by rw [hu]; exact hr) hd).trans hu.outPos

/-- In `DONE` the host reads what `OUT` holds below `PIXCNT` (R233, R234). -/
theorem State.hostReadOut_of_done {s : State} (h : s.phase = .done) {i : Nat} (hi : i < s.pixCnt.toNat) :
    s.hostReadOut i = Memory.read s.out i := by
  unfold State.hostReadOut
  simp only [h, if_pos hi]

/-- Settles O38: the state after the step meets the invariant of a stopped block, whose `OUT` the host can read. -/
theorem endOfRunIsComplete : Obligations.EndOfRunIsComplete := by
  intro s t h hr hh hs hd
  have ht := stepKeepsTheInvariant s t h hs
  have hstop := ht.when_stopped hd
  rw [step_run hh hr] at hs
  refine ⟨fun i hi => ?_, fun i hlo hi => ?_, hstop.cause_some, ?_, codeStep_outPos_of_done hr hs hd⟩
  · rw [State.hostReadOut_of_done hd hi]
    exact ⟨rfl, (hstop.written i).mpr hi⟩
  · rw [State.hostReadOut_of_done hd hi]
    exact hstop.tail_zero i hlo hi
  · rw [ht.short_iff_cause]
    exact and_iff_right hstop.cause_some

end Sys2Proof.Machine
end

section
/-! PROOFS. The code format both ways: the class of every code under legal registers (R95), decode and encode (R90 to R92,
R101), and the packing into bytes (R69, R101). -/

namespace Sys2Proof

/-! ### The rows of R95 exclude each other on legal registers -/

theorem classify_of_clear {r : CodeRegs} {c : Code} (hc : c.toNat = r.clearCode.toNat) : classify r c = .ok .clear := by
  rw [classify, if_pos hc]

theorem CodeRegs.Legal.classify_of_eoi {r : CodeRegs} (h : r.Legal) {c : Code} (hc : c.toNat = r.eoiCode.toNat) :
    classify r c = .ok .eoi := by
  obtain ⟨heoi, -⟩ := h
  rw [classify, if_neg (by omega), if_pos hc]

theorem CodeRegs.Legal.classify_of_invalid {r : CodeRegs} (h : r.Legal) {c : Code}
    (hc : r.avail.toNat < c.toNat ∨ (c.toNat = r.avail.toNat ∧ r.prevV = false)) : classify r c = .ok (.invalid c) := by
  obtain ⟨heoi, hlow, -⟩ := h
  have hge : r.avail.toNat ≤ c.toNat := hc.elim Nat.le_of_lt fun hh => hh.1.ge
  rw [classify, if_neg (by omega), if_neg (by omega), if_pos hc]

theorem CodeRegs.Legal.classify_of_lit {r : CodeRegs} (h : r.Legal) {c : Code} (hc : c.toNat < r.clearCode.toNat) :
    classify r c = .ok (.lit c) := by
  obtain ⟨heoi, hlow, -⟩ := h
  rw [classify, if_neg (by omega), if_neg (by omega), if_neg (by omega), if_pos hc]

theorem CodeRegs.Legal.classify_of_entry {r : CodeRegs} (h : r.Legal) {c : Code}
    (hc : r.clearCode.toNat + 2 ≤ c.toNat ∧ c.toNat < r.avail.toNat) : classify r c = .ok (.entry c) := by
  obtain ⟨heoi, -⟩ := h
  rw [classify, if_neg (by omega), if_neg (by omega), if_neg (by omega), if_neg (by omega), if_pos hc]

theorem CodeRegs.Legal.classify_of_kwkwk {r : CodeRegs} (h : r.Legal) {c : Code}
    (hc : c.toNat = r.avail.toNat ∧ r.prevV = true) : classify r c = .ok (.kwkwk c) := by
  obtain ⟨heoi, hlow, -⟩ := h
  have hvalid : ¬ (r.avail.toNat < c.toNat ∨ (c.toNat = r.avail.toNat ∧ r.prevV = false)) := by simp [hc]
  rw [classify, if_neg (by omega), if_neg (by omega), if_neg hvalid, if_neg (by omega), if_neg (by omega), if_pos hc]

/-- Settles O1: what a class says of the code is `classify_cases`; the other way the rows exclude each other, and together
they leave no code out. -/
theorem classOfEveryCode : Obligations.ClassOfEveryCode := by
  refine ⟨fun s hs => hs.codeRegs_legal, fun r c h => ⟨⟨fun hc => ?_, classify_of_clear⟩, ⟨fun hc => ?_, h.classify_of_eoi⟩,
    ⟨fun hc => ?_, h.classify_of_invalid⟩, ⟨fun hc => ?_, h.classify_of_lit⟩, ⟨fun hc => ?_, h.classify_of_entry⟩,
    ⟨fun hc => ?_, h.classify_of_kwkwk⟩, ?_⟩⟩
  case refine_7 =>
    obtain ⟨i, hi⟩ := h.classify_total c
    exact ⟨i, hi, codeOf_of_classify hi⟩
  all_goals simpa using classify_cases hc

/-! ### Decode and encode -/

/-- Under legal registers a well-formed instruction other than the host command is the class of a code that fits the
width. -/
theorem CodeRegs.Legal.exists_code_of_wf {r : CodeRegs} (h : r.Legal) {i : Instr} (hwf : i.wf r = true)
    (hcode : codeOf r i ≠ none) : ∃ c : Code, c.toNat < 2 ^ r.codeSize.toNat ∧ classify r c = .ok i := by
  cases i <;> simp only [Instr.wf, Code.fits, Bool.and_eq_true, Bool.or_eq_true, Bool.not_eq_true',
    decide_eq_true_eq] at hwf
  case clear =>
    have hnum : (r.clearCode.setWidth 12).toNat = r.clearCode.toNat := BitVec.toNat_setWidth_of_le (by decide)
    exact ⟨_, hnum ▸ hwf, classify_of_clear hnum⟩
  case eoi =>
    have hnum : (r.eoiCode.setWidth 12).toNat = r.eoiCode.toNat := BitVec.toNat_setWidth_of_le (by decide)
    exact ⟨_, hnum ▸ hwf, h.classify_of_eoi hnum⟩
  case invalid c => exact ⟨c, hwf.1, h.classify_of_invalid hwf.2⟩
  case lit c => exact ⟨c, hwf.1, h.classify_of_lit hwf.2⟩
  case entry c => exact ⟨c, hwf.1.1, h.classify_of_entry ⟨hwf.1.2, hwf.2⟩⟩
  case kwkwk c => exact ⟨c, hwf.1.1, h.classify_of_kwkwk ⟨hwf.1.2, hwf.2⟩⟩
  case start => exact absurd rfl hcode

/-- The bits of the class of a code are the bits of that code (R96, R101). -/
theorem encode_of_classify {r : CodeRegs} {c : Code} {i : Instr} (h : classify r c = .ok i) :
    encode r i = bitsOfNat r.codeSize.toNat c.toNat := by
  rw [encode, codeOf_of_classify h]

/-- The bits of a code that fits the width, followed by any others, decode to its class (R90, R92). -/
theorem decode_bitsOfNat_append {r : CodeRegs} {c : Code} {i : Instr} (hfits : c.toNat < 2 ^ r.codeSize.toNat)
    (hclass : classify r c = .ok i) (rest : List Bool) :
    decode r (bitsOfNat r.codeSize.toNat c.toNat ++ rest) = .ok (i, rest) := by
  have hlen := bitsOfNat_length r.codeSize.toNat c.toNat
  rw [decode, if_neg (by simp [hlen]), List.take_left' hlen, List.drop_left' hlen, natOfBits_bitsOfNat,
    Nat.mod_eq_of_lt hfits, BitVec.ofNat_toNat, BitVec.setWidth_eq]
  simp only [hclass]

/-- Settles O4: a well-formed instruction is the class of a code that fits the width, so its bits are read back whole. -/
theorem decodeOfEncode : Obligations.DecodeOfEncode := by
  intro r i rest h hwf hcode
  obtain ⟨c, hfits, hclass⟩ := h.exists_code_of_wf hwf hcode
  rw [encode_of_classify hclass]
  exact decode_bitsOfNat_append hfits hclass rest

/-- Settles O5: the instruction carries the code that was read, whose bits are those of the string. -/
theorem encodeOfDecode : Obligations.EncodeOfDecode := by
  intro r bits rest i hsize hdec
  obtain ⟨hlen, hclass, rfl⟩ := decode_ok hdec
  have hlt := natOfBits_lt (bits.take r.codeSize.toNat)
  have hback := bitsOfNat_natOfBits (bits.take r.codeSize.toNat)
  rw [List.length_take_of_le hlen] at hlt hback
  have h12 : 2 ^ r.codeSize.toNat ≤ 2 ^ 12 := Nat.pow_le_pow_right (by decide) hsize
  rw [encode_of_classify hclass, BitVec.toNat_ofNat, Nat.mod_eq_of_lt (Nat.lt_of_lt_of_le hlt h12)]
  exact ⟨by rw [hback, List.take_append_drop], bitsOfNat_length _ _⟩

/-! ### Packing into bytes -/

/-- The bits of zero are zeros. -/
theorem bitsOfNat_zero (w : Nat) : bitsOfNat w 0 = List.replicate w false := by
  induction w with
  | zero => rfl
  | succ w ih => simp [bitsOfNat, ih, List.replicate_succ]

/-- Written in more bits than it has, a bit string's number is that string and then zeros (R101). -/
theorem bitsOfNat_natOfBits_of_le {w : Nat} {bs : List Bool} (h : bs.length ≤ w) :
    bitsOfNat w (natOfBits bs) = bs ++ List.replicate (w - bs.length) false := by
  induction bs generalizing w with
  | nil => simp [natOfBits, bitsOfNat_zero]
  | cons b bs ih =>
    have hhalf : natOfBits (b :: bs) / 2 = natOfBits bs := by rw [natOfBits]; split <;> omega
    have hlow : decide (natOfBits (b :: bs) % 2 = 1) = b := by cases b <;> simp [natOfBits]
    cases w with
    | zero => exact absurd h (Nat.not_succ_le_zero _)
    | succ w =>
      rw [bitsOfNat, hhalf, hlow, ih (Nat.le_of_succ_le_succ h), List.length_cons, Nat.add_sub_add_right, List.cons_append]

/-- A packed byte holds up to eight bits of the string, then zeros. -/
theorem bitsOfNat_packByte (bs : List Bool) :
    bitsOfNat 8 (packByte bs).toNat = bs.take 8 ++ List.replicate (8 - bs.length) false := by
  have hlen : (bs.take 8).length ≤ 8 := List.length_take_le 8 bs
  have hlt : natOfBits (bs.take 8) < 2 ^ 8 :=
    Nat.lt_of_lt_of_le (natOfBits_lt _) (Nat.pow_le_pow_right (by decide) hlen)
  rw [packByte, BitVec.toNat_ofNat, Nat.mod_eq_of_lt hlt, bitsOfNat_natOfBits_of_le hlen, List.length_take]
  congr 2
  omega

theorem packBytesN_length (n : Nat) (bs : List Bool) : (packBytesN n bs).length = n := by
  induction n generalizing bs with
  | zero => rfl
  | succ n ih => rw [packBytesN, List.length_cons, ih]

/-- Enough packed bytes hold the whole string, then zeros. -/
theorem bitsOfBytes_packBytesN {n : Nat} {bs : List Bool} (h : bs.length ≤ 8 * n) :
    bitsOfBytes (packBytesN n bs) = bs ++ List.replicate (8 * n - bs.length) false := by
  induction n generalizing bs with
  | zero =>
    obtain rfl : bs = [] := List.eq_nil_of_length_eq_zero (by omega)
    rfl
  | succ n ih =>
    rw [packBytesN, bitsOfBytes, bitsOfNat_packByte, ih (by rw [List.length_drop]; omega), List.length_drop]
    by_cases h8 : 8 ≤ bs.length
    · rw [show 8 - bs.length = 0 by omega, List.replicate_zero, List.append_nil, ← List.append_assoc,
        List.take_append_drop, show 8 * n - (bs.length - 8) = 8 * (n + 1) - bs.length by omega]
    · rw [List.take_of_length_le (by omega), List.drop_of_length_le (by omega), List.nil_append, List.append_assoc,
        List.replicate_append_replicate, show 8 - bs.length + (8 * n - (bs.length - 8)) = 8 * (n + 1) - bs.length by omega]

/-- Settles O6, by induction over the bytes packed. -/
theorem packingKeepsTheBits : Obligations.PackingKeepsTheBits :=
  fun bits => ⟨packBytesN_length _ bits, bitsOfBytes_packBytesN (by omega)⟩

end Sys2Proof
end

section
/-! PROOFS. The classes that a launched block can meet (R97). -/

namespace Sys2Proof.Machine

@[simp] theorem State.codeRegs_clearCode (s : State) : s.codeRegs.clearCode = s.clearCode := rfl
@[simp] theorem State.codeRegs_avail (s : State) : s.codeRegs.avail = s.avail := rfl
@[simp] theorem State.codeRegs_prevV (s : State) : s.codeRegs.prevV = s.prevV := rfl

/-- Settles O3: each clause is a row of R95 under the bounds of R41 on `AVAIL`, with `PREVV` given. -/
theorem classesAStateCanMeet : Obligations.ClassesAStateCanMeet := by
  intro s c h hfits
  obtain ⟨-, -, hinvalid, -, hentry, hkwkwk, -⟩ := classOfEveryCode.2 s.codeRegs c h.codeRegs_legal
  have hempty := h.empty_avail
  have havail := h.avail_fits
  have hwidth : 2 ^ s.codeSize.toNat ≤ 2 ^ 12 := Nat.pow_le_pow_right (by decide) h.size_high
  simp only [State.codeRegs_clearCode, State.codeRegs_avail, State.codeRegs_prevV] at hinvalid hentry hkwkwk
  simp only [ne_eq, hinvalid, hentry, hkwkwk, h.mask_eq]
  cases hp : s.prevV with
  | false =>
    specialize hempty hp
    simp only [reduceCtorEq, and_false, and_true, not_false_eq_true, true_and, true_implies, false_implies]
    omega
  | true =>
    simp only [reduceCtorEq, and_false, and_true, or_false, true_implies, false_implies, true_and]
    omega

end Sys2Proof.Machine
end

section
/-! PROOFS. Listings (R100, R101): the encoder's width schedule is the decoder's (R91), an assembled listing stands in the
stream of a launch, and a run reads it back code by code. -/

namespace Sys2Proof.Machine

/-! ### The width schedule -/

/-- The launch values of the schedule are those of an accepted `START` (R91, R120). -/
theorem codeRegs_launch (m : Byte) (n : BitVec 32) (len : Nat) (s : State) :
    (launch m n len s).codeRegs = scheduleStart m.toNat := by
  simp [State.codeRegs, scheduleStart, Nat.one_shiftLeft]

/-- What `CLEAR` makes of the decoder's registers is the launch's schedule again (R91, R140). -/
theorem Launched.codeRegs_clear {s : State} (h : Launched s) :
    (resetDictionary s).codeRegs = scheduleAfter s.mincs.toNat s.codeRegs .clear := by
  simp [State.codeRegs, scheduleAfter, scheduleStart, h.clear_eq]

/-- The width that a data code leaves, with the growth test of R164 as the one an encoder makes (R91). -/
theorem DataEffect.codeSize_eq {s t : State} {c : Code} {f : Sym} {str : List Sym} (he : DataEffect s c f str t)
    (h : Launched s) (hadd : s.prevV = true ∧ s.avail.toNat < 4096) :
    t.codeSize = if s.avail.toNat + 1 = 2 ^ s.codeSize.toNat ∧ s.codeSize.toNat < 12 then
      BitVec.ofNat 4 (s.codeSize.toNat + 1) else s.codeSize := by
  have hiff := h.grows_iff hadd.2
  split
  · next hg =>
    rw [← (he.grown hadd.1 hadd.2 (hiff.mpr hg.1) hg.2).1, BitVec.ofNat_toNat, BitVec.setWidth_eq]
  · next hg => exact (he.not_grown fun ⟨_, _, hzero, hlt⟩ => hg ⟨hiff.mp hzero, hlt⟩).1

/-- What a data code makes of the decoder's registers is the encoder's schedule (R91, R163, R164). -/
theorem DataEffect.codeRegs_eq {s t : State} {c : Code} {f : Sym} {str : List Sym} (he : DataEffect s c f str t)
    (h : Launched s) : t.codeRegs = scheduleData s.codeRegs := by
  have havail := he.avail_eq
  have hclear : t.clearCode = s.clearCode := by rw [he.frame]
  have heoi : t.eoiCode = s.eoiCode := by rw [he.frame]
  obtain ⟨hprev, -, -⟩ := he.prev_eq
  by_cases hadd : s.prevV = true ∧ s.avail.toNat < 4096
  · rw [if_pos hadd] at havail
    have hroom : t.avail = BitVec.ofNat 13 (s.avail.toNat + 1) := by rw [← havail, BitVec.ofNat_toNat, BitVec.setWidth_eq]
    rw [scheduleData, if_pos (show s.codeRegs.prevV = true ∧ s.codeRegs.avail.toNat < Config.tableCap from hadd),
      State.codeRegs, hclear, heoi, hprev, hroom, he.codeSize_eq h hadd, ← hadd.1]
    rfl
  · rw [if_neg hadd] at havail
    have hsize := (he.not_grown fun ⟨hp, hroom, _⟩ => hadd ⟨hp, hroom⟩).1
    rw [scheduleData, if_neg (show ¬ (s.codeRegs.prevV = true ∧ s.codeRegs.avail.toNat < Config.tableCap) from hadd),
      State.codeRegs, hclear, heoi, hprev, hsize, BitVec.eq_of_toNat_eq havail]
    rfl

/-- After any code the block holds what the schedule says (R91). -/
theorem Launched.codeRegs_exec {s t : State} (h : Launched s) {i : Instr} (hi : codeOf s.codeRegs i ≠ none)
    (hx : exec i s = .next t) : t.codeRegs = scheduleAfter s.mincs.toNat s.codeRegs i := by
  rcases exec_cases hx with ⟨rfl, rfl⟩ | ⟨rfl, rfl⟩ | ⟨⟨c, rfl⟩, rfl⟩ | ⟨c, hclass, f, l, rfl⟩ | ⟨m, n, len, rfl, -⟩
  · exact h.codeRegs_clear
  · rfl
  · rfl
  · have hstk : Launched { s with stk := [] } := { h with }
    have hdata := (dataUpdate_effect { s with stk := [] } c f (f :: l)).codeRegs_eq hstk
    rcases hclass with rfl | rfl | rfl <;> exact hdata
  · exact absurd rfl hi

/-- Settles O47, by the operation of each class. -/
theorem widthScheduleIsTheDecoders : Obligations.WidthScheduleIsTheDecoders :=
  fun _ _ _ h _ hi hx => h.codeRegs_exec hi hx

/-! ### The stream of a launch -/

/-- Bit `k` of a byte sequence is bit `k mod 8` of byte `k div 8` (R69). -/
theorem getElem?_bitsOfBytes (bytes : List Byte) (k : Nat) :
    (bitsOfBytes bytes)[k]? = bytes[k / 8]?.map (fun b => b.getLsbD (k % 8)) := by
  induction bytes generalizing k with
  | nil => rfl
  | cons b bytes ih =>
    rw [bitsOfBytes]
    by_cases hk : k < 8
    · have hlen : k < (bitsOfNat 8 b.toNat).length := by rw [bitsOfNat_length]; exact hk
      rw [List.getElem?_append_left hlen, List.getElem?_eq_getElem hlen, getElem_bitsOfNat, Nat.div_eq_of_lt hk,
        Nat.mod_eq_of_lt hk]
      rfl
    · obtain ⟨j, rfl⟩ := Nat.exists_eq_add_of_le' (Nat.le_of_not_lt hk)
      rw [List.getElem?_append_right (by rw [bitsOfNat_length]; omega), bitsOfNat_length, Nat.add_sub_cancel, ih,
        Nat.add_div_right j (by decide), Nat.add_mod_right, List.getElem?_cons_succ]

/-- The stream of a sequence of bytes is its bit string (R69). -/
theorem streamBit_of_cells {s : State} {bytes : List Byte} (h : s.inp = Memory.cells 0 bytes) (k : Nat) :
    s.streamBit k = (bitsOfBytes bytes)[k]? := by
  rw [State.streamBit, h, Memory.read_cells, if_pos (Nat.zero_le _), Nat.sub_zero, getElem?_bitsOfBytes]

/-- Settles O48: the launch leaves `IN`, gives the registers from which the listing was assembled, and starts at bit 0 of the
packed bits. -/
theorem assembledListingStandsInTheStream : Obligations.AssembledListingStandsInTheStream := by
  intro s m n codes hp h2 h8 hinp
  have hsup : s.suppliedBytes = (assemble m.toNat codes).length := by
    rw [State.suppliedBytes, hinp, Memory.length_cells]
  have hmincs : (launch m n (assemble m.toNat codes).length s).mincs.toNat = m.toNat := (launch_codes h8).1
  obtain ⟨hlen, hbits⟩ := packingKeepsTheBits (listingBits m.toNat (scheduleStart m.toNat) codes)
  refine ⟨_, execStart_launch n hp h2 h8 hsup, fun i hi => ?_, rfl, ?_, ?_⟩
  · rw [launch_inp, hinp]
    exact (Memory.isSome_read_cells _ i).mpr hi
  · rw [hmincs, codeRegs_launch]
    intro j hj
    rw [streamBit_of_cells (s := launch _ _ _ s) hinp, assemble, hbits]
    show (_ ++ _)[0 + j]? = _
    rw [Nat.zero_add, List.getElem?_append_left hj, List.getElem?_eq_getElem hj]
  · rw [hmincs, codeRegs_launch, launch_inLen, assemble, hlen]
    omega

/-! ### Reading a listing back -/

/-- In a run whose stream goes on with the bits of a code that fits the width, the fetch answers this code, and the stream
then goes on with what followed them (R69, R126). -/
theorem Inv.fetch_of_stream {s : State} (h : Inv s) (hr : s.phase = .run) {v : Code} {rest : List Bool}
    (hfits : v.toNat < 2 ^ s.codeSize.toNat) (hstream : StreamFrom s (bitsOfNat s.codeSize.toNat v.toNat ++ rest))
    (hleft : s.codeSize.toNat ≤ 8 * s.inLen - s.bitPos) : ∃ u, fetch s = .code v u ∧ StreamFrom u rest := by
  have hl := h.launched hr
  have hlen := bitsOfNat_length s.codeSize.toNat v.toNat
  obtain ⟨c, u, hf⟩ := h.fetch_of_bits_left hr hleft
  obtain ⟨hlt, hbits⟩ := fetch_code_bits (h.fillOk hr) hl.size_high hl.mask_eq hf
  obtain ⟨_, hpos, _, hsame⟩ := (fetch_ok (h.fillOk hr) (h.when_running hr).count_small hl.size_high).1 c u hf
  have hnum := natOfBits_take_eq (by simp [hlen]) hlt fun j hj hjw =>
    Option.some.inj ((hstream j hj).symm.trans (hbits j hjw))
  rw [List.take_left' hlen, natOfBits_bitsOfNat, Nat.mod_eq_of_lt hfits] at hnum
  obtain rfl := BitVec.eq_of_toNat_eq hnum
  refine ⟨u, hf, fun j hj => ?_⟩
  have hj' := hstream (s.codeSize.toNat + j) (by rw [List.length_append, hlen]; omega)
  rw [hsame.streamBit, hpos, Nat.add_assoc, hj', List.getElem_append_right (by omega)]
  simp only [hlen, Nat.add_sub_cancel_left]

/-- The operation of a code leaves the stream from `BITPOS` on (R49, R62). -/
theorem CodeDone.streamFrom {u t : State} (h : CodeDone u t) {bits : List Bool} (hs : StreamFrom u bits) :
    StreamFrom t bits := by
  obtain ⟨-, -, -, -, -, hinp, -⟩ := h.sameLaunch
  intro j hj
  rw [State.streamBit, hinp, h.bitPos]
  exact hs j hj

/-- After a code of a class the schedule is that of the class. -/
theorem scheduleCode_of_classify {m : Nat} {r : CodeRegs} {v : Code} {i : Instr} (h : classify r v = .ok i) :
    scheduleCode m r v = scheduleAfter m r i := by
  rw [scheduleCode]
  simp only [h]

/-- Settles O49: the fetch answers the listing's first code, its class completes and leaves the rest of the listing next in
the stream, and the registers it leaves are those that the schedule gives the rest. -/
theorem listingIsReadBackInOrder : Obligations.ListingIsReadBackInOrder := by
  intro s v vs h hr hh hout hfits hstream hleft
  rw [listingBits, List.length_append, bitsOfNat_length] at hleft
  obtain ⟨u, hf, hrest⟩ := h.fetch_of_stream hr hfits hstream (Nat.le_trans (Nat.le_add_right _ _) hleft)
  obtain ⟨hu, hru, -⟩ := h.of_fetch hr hf
  have hsame := (fetch_frame s).1 v u hf
  have hregs : u.codeRegs = s.codeRegs := by rw [hsame]; rfl
  have hmincs : u.mincs = s.mincs := by rw [hsame]
  obtain ⟨i, hclass⟩ := (h.launched hr).codeRegs_legal.classify_total v
  have hclass' : classify u.codeRegs v = .ok i := hregs ▸ hclass
  obtain ⟨t, hx⟩ := hu.exec_completes hru hclass'
  have hdone := codeDone_of_exec hclass' hx
  have hnext : t.codeRegs = scheduleCode s.mincs.toNat s.codeRegs v := by
    rw [(hu.launched hru).codeRegs_exec (by simp [codeOf_of_classify hclass']) hx, scheduleCode_of_classify hclass,
      hregs, hmincs]
  refine ⟨i, u, t, hclass, ?_, hx, ?_⟩
  · rw [step_run hh hr, codeStep_of_code hout hf hclass']
  · rw [hnext, hdone.sameLaunch.1, hmincs]
    exact hdone.streamFrom hrest

end Sys2Proof.Machine
end

section
/-! PROOFS. A run as a function of its launch (R38, R123): two launches agree but for hidden state, and so do all the
steps after them. -/

namespace Sys2Proof.Machine

/-- The first step of a completing run completes, and the rest of the run starts where it ends. -/
theorem step_of_run_succ {k : Nat} {s u : State} (h : Sys2Proof.core.run (k + 1) s = .next u) :
    ∃ v, step s = .next v ∧ Sys2Proof.core.run k v = .next u := by
  cases hs : step s with
  | next v => exact ⟨v, rfl, run_succ_of_step k hs ▸ h⟩
  | fault r => simp [Host.Core.run, Sys2Proof.core, hs] at h
  | refused r => simp [Host.Core.run, Sys2Proof.core, hs] at h

/-- Hidden state does not show in any number of steps (R38). -/
theorem SameRun.of_run {k : Nat} {s t s' : State} (h : SameRun s t) (hs : Inv s) (ht : Inv t)
    (hx : Sys2Proof.core.run k s = .next s') : ∃ t', Sys2Proof.core.run k t = .next t' ∧ SameRun s' t' := by
  induction k generalizing s t with
  | zero => cases hx; exact ⟨t, rfl, h⟩
  | succ k ih =>
    obtain ⟨u, hu, hrest⟩ := step_of_run_succ hx
    obtain ⟨v, hv, huv⟩ := hiddenStateNeverShows s t u hs ht h hu
    rw [run_succ_of_step k hv]
    exact ih huv (stepKeepsTheInvariant s u hs hu) (stepKeepsTheInvariant t v ht hv) hrest

/-- Launched alike on the same `IN`, two blocks are equal but for hidden state, whatever earlier runs left (R120, R123). -/
theorem sameRun_launch {s t : State} (hinp : t.inp = s.inp) (hstk : t.stk = s.stk) (hhost : t.host = s.host) {m : Byte}
    (n : BitVec 32) (len : Nat) (h8 : m.toNat ≤ 8) : SameRun (launch m n len s) (launch m n len t) where
  tbl_live := by
    intro e he
    obtain ⟨_, hclear, _, havail⟩ := launch_codes h8
    rw [launch_clearCode, launch_avail, hclear, havail] at he
    rw [launch_read_tbl, launch_read_tbl, Nat.one_shiftLeft, if_pos (by omega), if_pos (by omega)]
  prev_eq := nofun
  rest := by simp only [launch, hinp, hstk, hhost]

/-- Outside a run, a completing step whose only host move is a `START` is the launch, and the run it brings meets the
invariant. -/
theorem Inv.step_start {s u : State} (h : Inv s) (hp : s.phase ≠ .run) {m : Byte} {n : BitVec 32} {len : Nat}
    (hx : step { s with host := [.start m n len] } = .next u) :
    u = launch m n len { s with host := [] } ∧ Inv u := by
  refine ⟨?_, stepKeepsTheInvariant _ u (h.of_host _) hx⟩
  rw [step_of_host rfl] at hx
  rcases execStart_cases hx with ⟨hr, _⟩ | ⟨_, _, _, _, hu⟩
  · exact absurd hr hp
  · exact hu

/-- Settles O46: after the launch the two blocks are equal but for hidden state, by induction on the steps they stay so, and
the result of a run is no hidden state. -/
theorem runIsAFunctionOfItsLaunch : Obligations.RunIsAFunctionOfItsLaunch := by
  intro s t s' t' m n len k hs ht hps hpt hinp _ _ _ h8 hxs hxt hk
  obtain ⟨k, rfl⟩ := Nat.exists_eq_add_one.mpr hk
  obtain ⟨u, hu, hrs⟩ := step_of_run_succ hxs
  obtain ⟨v, hv, hrt⟩ := step_of_run_succ hxt
  obtain ⟨rfl, hinvu⟩ := hs.step_start hps hu
  obtain ⟨rfl, hinvv⟩ := ht.step_start hpt hv
  have hlaunch : SameRun (launch m n len { s with host := [] }) (launch m n len { t with host := [] }) :=
    sameRun_launch (s := { s with host := [] }) (t := { t with host := [] }) hinp.symm
      (ht.stack_empty.trans hs.stack_empty.symm) rfl n len h8
  obtain ⟨w, hw, hsame⟩ := hlaunch.of_run hinvu hinvv hrs
  obtain rfl : t' = w := Host.Outcome.next.inj (hrt.symm.trans hw)
  rw [hsame.rest]
  exact ⟨rfl, rfl, rfl, rfl⟩

end Sys2Proof.Machine
end

section
/-! PROOFS. `START`: launched outside a run, ignored in it, refused where it is reserved (R120 to R123). -/

namespace Sys2Proof.Machine

/-- Settles O26: the launch writes each register with its number, and `START` completes with it. -/
theorem startLaunches : Obligations.StartLaunches := by
  intro s m n len hp h2 h8 hlen
  obtain ⟨hmincs, hclear, heoi, havail⟩ := launch_codes h8
  obtain ⟨hsize, hmask⟩ := fresh_width h8
  refine ⟨launch m n len s, execStart_launch n hp h2 h8 hlen, rfl, rfl, rfl, rfl, hmincs, hclear, heoi, havail, hsize,
    hmask, rfl, rfl, rfl, rfl, rfl, rfl, rfl, fun c hc => ?_, fun c hc => ?_, fun _ => rfl, rfl, rfl, rfl, rfl, rfl⟩
  · rw [launch_read_tbl, Nat.one_shiftLeft, if_pos hc]
  · rw [launch_read_tbl, Nat.one_shiftLeft, if_neg (by omega)]

/-- Settles O27: outside a run the test of the range comes first. -/
theorem reservedStartIsRefused : Obligations.ReservedStartIsRefused := by
  intro s m n len hp hm
  have hrange : ¬ (Config.minCodeSizeLow ≤ m.toNat ∧ m.toNat ≤ Config.minCodeSizeHigh) := by
    simp only [Config.minCodeSizeLow, Config.minCodeSizeHigh]
    omega
  exact (if_neg hp).trans (if_neg hrange)

/-- Settles O29: the phase is tested before any argument. -/
theorem startInRunIsIgnored : Obligations.StartInRunIsIgnored := fun _ _ _ _ hr => if_pos hr

end Sys2Proof.Machine
end

section
/-! PROOFS. The step of a run: the code it runs (R124), the vectors of the fetch (R126), and the two stops that read no code
(R125, R127). -/

namespace Sys2Proof

/-- Settles O2: each branch of the step's tests is under the condition of its row of R95; the first `LIT` branch has no
previous code, so `AVAIL` is at its launch value. -/
theorem orderOfTestsAgrees : Obligations.OrderOfTestsAgrees := by
  intro r c h
  have ⟨heoi, _, _, _, hempty⟩ := h
  unfold Machine.orderedTests
  split_ifs with hclear hend habove hat hprev heq hbase
  · exact classify_of_clear hclear
  · exact h.classify_of_eoi hend
  · exact h.classify_of_invalid (.inl habove)
  · exact h.classify_of_invalid (.inr hat)
  · have hne : c.toNat ≠ r.avail.toNat := fun he => hat ⟨he, hprev⟩
    have havail := hempty hprev
    exact h.classify_of_lit (by omega)
  · exact h.classify_of_kwkwk ⟨heq, eq_true_of_ne_false hprev⟩
  · exact h.classify_of_lit hbase
  · exact h.classify_of_entry ⟨by omega, by omega⟩

namespace Machine

/-- Settles O9, by running the fetch on each vector. -/
theorem fetchVectors : Obligations.FetchVectors :=
  ⟨rfl, rfl, rfl, rfl, rfl, rfl, rfl⟩

/-- Settles O10: in a run without host moves the step is that of R124. -/
theorem stepRunsTheFetchedCode : Obligations.StepRunsTheFetchedCode :=
  fun _ _ _ _ hh hr hout hf hc => (step_run hh hr).trans (codeStep_of_code hout hf hc)

/-- The stop has the effect of R195, whatever the state. -/
theorem stop_effect (c : Cause) (s : State) : StopEffect s c (stop c s) where
  phase_eq := rfl
  cause_eq := rfl
  fill := fun i hlo hhi => by rw [stop_read_out, if_pos ⟨hlo, hhi⟩]
  out_old := fun i hi => by rw [stop_read_out, if_neg (by omega)]
  frame := rfl

/-- Settles O13: the step stops before the fetch, and a stop with the output full fills no position. -/
theorem outputFullStops : Obligations.OutputFullStops := by
  intro s hh hr hfull
  have hshort : (stop .complete s).short = false := by simp [State.short, hfull]
  refine ⟨stop .complete s, (step_run hh hr).trans (codeStep_of_full hfull), rfl, rfl, rfl, hshort, fun i => ?_, rfl⟩
  exact (stop_effect .complete s).out_old i (by rw [hfull]; omega)

/-! ### The end of the input -/

/-- Loading a byte into a buffer with room leaves `BITPOS`, even where the count exceeds the bits of the bytes read
(R31, R126). -/
theorem loadByte_bitPos {s : State} (b : Byte) (h : s.bitCnt.toNat < 24) : (loadByte b s).bitPos = s.bitPos := by
  rw [State.bitPos, State.bitPos, loadByte_bitCnt, loadByte_inPos, BitVec.toNat_ofNat]
  omega

/-- On a supplied input with fewer bits left than the width, filling the buffer takes all of them and ends (R127). -/
theorem Supplied.fillBuffer_ended {n : Nat} {s : State} (h : Supplied s) (hwithin : s.inPos ≤ s.inLen)
    (hfew : s.bitCnt.toNat + 8 * (s.inLen - s.inPos) < s.codeSize.toNat) (hn : s.inLen - s.inPos < n) :
    ∃ u, fillBuffer n s = .ended u ∧ u.inPos = s.inLen ∧ u.bitPos = s.bitPos := by
  induction n generalizing s with
  | zero => omega
  | succ n ih =>
    have hmissing : ¬ s.codeSize.toNat ≤ s.bitCnt.toNat := by omega
    by_cases hend : s.inPos = s.inLen
    · exact ⟨s, fillBuffer_of_end hmissing hend, hend, rfl⟩
    · obtain ⟨b, hb⟩ := Option.isSome_iff_exists.mp (h s.inPos (by omega))
      have hsize := s.codeSize.isLt
      have hcount : (loadByte b s).bitCnt.toNat = s.bitCnt.toNat + 8 := by
        rw [loadByte_bitCnt, BitVec.toNat_ofNat]
        omega
      obtain ⟨u, hu, hpos, hbit⟩ := ih (s := loadByte b s) h
        (by rw [loadByte_inPos, loadByte_inLen]; omega)
        (by rw [hcount, loadByte_inPos, loadByte_inLen, loadByte_codeSize]; omega)
        (by rw [loadByte_inPos, loadByte_inLen]; omega)
      refine ⟨u, ?_, hpos, hbit.trans (loadByte_bitPos b (by omega))⟩
      rw [fillBuffer_of_read hmissing hend, hb]
      exact hu

/-- Settles O14: at most one whole byte is left, so two rounds of the fill reach the end, and the step stops there. -/
theorem inputEndStops : Obligations.InputEndStops := by
  intro s hh hr hout hwithin hsup hfew
  have hsize := s.codeSize.isLt
  obtain ⟨u, hu, hpos, hbit⟩ := hsup.fillBuffer_ended (n := 2) hwithin hfew (by omega)
  have hf : fetch s = .ended u := by rw [fetch, hu]
  have hsame := (fetch_frame s).2 u hf
  refine ⟨stop .exhausted u, (step_run hh hr).trans (codeStep_of_ended hout hf), hpos, hbit, rfl, fun hlt => ?_, ?_⟩
  · rw [State.short_iff, hsame]
    exact ⟨rfl, hlt⟩
  · show StopEffect { s with bitBuf := u.bitBuf, bitCnt := u.bitCnt, inPos := u.inPos } .exhausted (stop .exhausted u)
    rw [← hsame]
    exact stop_effect .exhausted u

/-! ### The table -/

/-- The operation of a code writes no entry but entry `AVAIL` (R163). -/
theorem CodeDone.read_tbl {u t : State} (h : CodeDone u t) {e : Nat} (he : e ≠ u.avail.toNat) :
    Memory.read t.tbl e = Memory.read u.tbl e := by
  cases h with
  | stop _ => rfl
  | clear => rfl
  | data hd =>
    obtain ⟨f, l, rfl⟩ := hd
    exact (dataUpdate_effect { u with stk := [] } _ f (f :: l)).tbl_old e fun hadd => he hadd.2.2

/-- Settles O44: the stops and the fetch leave the table, and the operation of a code writes entry `AVAIL` at most. -/
theorem onlyEntryAvailIsWritten : Obligations.OnlyEntryAvailIsWritten := by
  intro s t e hh h he
  rw [step_of_no_host hh] at h
  by_cases hr : s.phase = .run
  · rw [blockStep_of_run hr] at h
    rcases codeStep_done h with ⟨_, rfl⟩ | ⟨u, hf, rfl⟩ | ⟨c, u, hf, hd⟩
    · rfl
    · rw [stop_tbl, (fetch_frame s).2 u hf]
    · have hu := (fetch_frame s).1 c u hf
      have havail : u.avail = s.avail := by rw [hu]
      have htbl : u.tbl = s.tbl := by rw [hu]
      rw [hd.read_tbl (havail ▸ he), htbl]
  · rw [blockStep_of_rest hr] at h
    cases h
    rfl

end Machine
end Sys2Proof
end

section
/-! PROOFS. The host's turn (R10, R210, R234): no operation of the block looks at the host's coming moves, so the block's
step is the same whatever they are (log 4). -/

namespace Sys2Proof.Machine

/-- `s` with other coming moves of the host. -/
def State.withHost (r : List HostMove) (s : State) : State := { s with host := r }

/-- What filling the bit buffer ends in, with other coming moves of the host. -/
def Filled.withHost (r : List HostMove) : Filled → Filled
  | .ready s => .ready (s.withHost r)
  | .ended s => .ended (s.withHost r)
  | .absent i => .absent i

/-! ### The fetch -/

/-- The loop of the fetch does not look at the host's coming moves (R126). -/
theorem fillBuffer_withHost (r : List HostMove) (n : Nat) (s : State) :
    fillBuffer n (s.withHost r) = (fillBuffer n s).withHost r := by
  induction n generalizing s with
  | zero => rfl
  | succ n ih =>
    by_cases h : s.codeSize.toNat ≤ s.bitCnt.toNat
    · rw [fillBuffer_of_enough h]
      exact fillBuffer_of_enough (s := s.withHost r) h
    · by_cases he : s.inPos = s.inLen
      · rw [fillBuffer_of_end h he]
        exact fillBuffer_of_end (s := s.withHost r) h he
      · rw [fillBuffer_of_read h he, fillBuffer_of_read (s := s.withHost r) h he]
        show (Memory.read s.inp s.inPos).elim _ _ = _
        cases Memory.read s.inp s.inPos with
        | none => rfl
        | some b => exact ih (loadByte b s)

/-- The fetch of a code, and the end of the input, are the same whatever the host's coming moves are. -/
theorem fetch_withHost (r : List HostMove) {s u : State} :
    (∀ c, fetch s = .code c u → fetch (s.withHost r) = .code c (u.withHost r)) ∧
    (fetch s = .ended u → fetch (s.withHost r) = .ended (u.withHost r)) := by
  unfold fetch
  rw [fillBuffer_withHost]
  cases fillBuffer 2 s with
  | ready v => exact ⟨fun c h => (by cases h; rfl), nofun⟩
  | ended v => exact ⟨nofun, fun h => (by cases h; rfl)⟩
  | absent i => exact ⟨nofun, nofun⟩

/-! ### The operations of the codes -/

theorem push_withHost (r : List HostMove) {v : Sym} {s u : State} (h : push v s = .ok u) :
    push v (s.withHost r) = .ok (u.withHost r) := by
  rcases push_cases v s with ⟨hp, hroom⟩ | hp <;> rw [hp] at h <;> cases h
  exact push_of_room (s := s.withHost r) v hroom

/-- One round of the walk that answers: the symbol of a base code, or an entry's suffix and the walk on from the code it names
(R161). -/
theorem walkFrom_succ_ok_iff {n : Nat} {c : Code} {s u : State} :
    walkFrom (n + 1) c s = .ok u ↔
      (c.toNat < s.clearCode.toNat ∧ push (c.setWidth 8) s = .ok u) ∨
      (¬ c.toNat < s.clearCode.toNat ∧ ∃ e v, Memory.read s.tbl c.toNat = some e ∧ push e.sfx s = .ok v ∧
        walkFrom n e.pfx v = .ok u) := by
  rw [walkFrom]
  by_cases hbase : c.toNat < s.clearCode.toNat
  · simp [hbase]
  · cases he : Memory.read s.tbl c.toNat with
    | none => simp [hbase]
    | some e => cases hp : push e.sfx s <;> simp [hbase, hp]

theorem walkFrom_withHost (r : List HostMove) {n : Nat} {c : Code} {s u : State} (h : walkFrom n c s = .ok u) :
    walkFrom n c (s.withHost r) = .ok (u.withHost r) := by
  induction n generalizing c s with
  | zero => cases h
  | succ n ih =>
    rcases walkFrom_succ_ok_iff.mp h with ⟨hbase, hp⟩ | ⟨hlink, e, v, he, hp, hw⟩
    · exact walkFrom_succ_ok_iff.mpr (.inl ⟨hbase, push_withHost r hp⟩)
    · exact walkFrom_succ_ok_iff.mpr (.inr ⟨hlink, e, _, he, push_withHost r hp, ih hw⟩)

theorem widen_withHost (r : List HostMove) (s : State) : widen (s.withHost r) = (widen s).withHost r := by
  rw [widen, widen, apply_ite (State.withHost r)]
  rfl

theorem tableAdd_withHost (r : List HostMove) (f : Sym) (s : State) :
    tableAdd f (s.withHost r) = (tableAdd f s).withHost r := by
  rw [tableAdd, tableAdd, apply_ite (State.withHost r), ← widen_withHost]
  rfl

theorem finishData_withHost (r : List HostMove) {c : Code} {s t : State} (h : finishData c s = .next t) :
    finishData c (s.withHost r) = .next (t.withHost r) := by
  obtain ⟨f, l, hstk, rfl⟩ := finishData_cases h
  have hadd := tableAdd_withHost r f (emit (f :: l) { s with stk := [] })
  simp only [finishData, popAll, show (s.withHost r).stk = f :: l from hstk]
  exact congrArg (fun u => Host.Outcome.next (notePrev c f u)) hadd

/-! A data code completes exactly when what puts its string on the stack answers and the common end completes (R166 to
R169). -/

theorem execLit_next_iff {c : Code} {s t : State} :
    execLit c s = .next t ↔ ∃ u, push (c.setWidth 8) s = .ok u ∧ finishData c u = .next t := by
  unfold execLit
  cases push (c.setWidth 8) s <;> simp

theorem execEntry_next_iff {c : Code} {s t : State} :
    execEntry c s = .next t ↔ ∃ u, walk c s = .ok u ∧ finishData c u = .next t := by
  unfold execEntry
  cases walk c s <;> simp

theorem execKwkwk_next_iff {c : Code} {s t : State} :
    execKwkwk c s = .next t ↔
      ∃ u v, push s.firstSym s = .ok u ∧ walk u.prev u = .ok v ∧ finishData c v = .next t := by
  unfold execKwkwk
  cases push s.firstSym s with
  | error f => simp
  | ok u => cases hw : walk u.prev u <;> simp [hw]

/-- The operation of a code leaves the same whatever the host's coming moves are. -/
theorem exec_withHost (r : List HostMove) {regs : CodeRegs} {c : Code} {i : Instr} {s t : State}
    (hc : classify regs c = .ok i) (h : exec i s = .next t) : exec i (s.withHost r) = .next (t.withHost r) := by
  cases i with
  | clear => cases h; rfl
  | eoi => cases h; rfl
  | invalid _ => cases h; rfl
  | lit c =>
    obtain ⟨u, hp, hd⟩ := execLit_next_iff.mp h
    exact execLit_next_iff.mpr ⟨_, push_withHost r hp, finishData_withHost r hd⟩
  | entry c =>
    obtain ⟨u, hw, hd⟩ := execEntry_next_iff.mp h
    exact execEntry_next_iff.mpr ⟨_, walkFrom_withHost r hw, finishData_withHost r hd⟩
  | kwkwk c =>
    obtain ⟨u, v, hp, hw, hd⟩ := execKwkwk_next_iff.mp h
    exact execKwkwk_next_iff.mpr ⟨_, _, push_withHost r hp, walkFrom_withHost r hw, finishData_withHost r hd⟩
  | start m n len => exact absurd hc classify_ne_start

/-! ### The step -/

theorem codeStep_withHost (r : List HostMove) {s t : State} (h : codeStep s = .next t) :
    codeStep (s.withHost r) = .next (t.withHost r) := by
  rcases codeStep_next h with ⟨hfull, rfl⟩ | ⟨hout, u, hf, rfl⟩ | ⟨hout, c, u, i, hf, hc, hx⟩
  · exact codeStep_of_full (s := s.withHost r) hfull
  · exact codeStep_of_ended (s := s.withHost r) hout ((fetch_withHost r).2 hf)
  · rw [codeStep_of_code (s := s.withHost r) hout ((fetch_withHost r).1 c hf) hc]
    exact exec_withHost r hc hx

theorem blockStep_withHost (r : List HostMove) {s t : State} (h : blockStep s = .next t) :
    blockStep (s.withHost r) = .next (t.withHost r) := by
  by_cases hr : s.phase = .run
  · rw [blockStep_of_run hr] at h
    rw [blockStep_of_run (s := s.withHost r) hr]
    exact codeStep_withHost r h
  · rw [blockStep_of_rest hr] at h
    cases h
    exact blockStep_of_rest (s := s.withHost r) hr

/-- Settles O12: the host's move is the step where it makes one, and a waiting host's coming moves do not matter to the
block. -/
theorem turnsOfHostAndBlock : Obligations.TurnsOfHostAndBlock := by
  refine ⟨fun s hh hr => ?_, fun s u rest hh hx => ?_, fun s m n len rest hh => step_of_host hh⟩
  · rw [step_of_no_host hh, blockStep_of_rest hr]
  · rw [step_of_no_host rfl] at hx
    rw [step_of_host hh]
    exact blockStep_withHost (s := { s with host := [] }) rest hx

end Sys2Proof.Machine
end

section
/-! PROOFS. The control codes (R140 to R146): the registers that `CLEAR` leaves, and the stops of `EOI` and `INVALID`. -/

namespace Sys2Proof.Machine

/-! ### `CLEAR` -/

/-- `AVAIL` has a bit more than the sum needs, so the sum does not wrap (R140). -/
theorem resetDictionary_avail_toNat (s : State) : (resetDictionary s).avail.toNat = s.clearCode.toNat + 2 := by
  have := s.clearCode.isLt
  rw [resetDictionary_avail, BitVec.toNat_ofNat]
  omega

/-- Settles O16: the width and the mask are the fresh ones, and the frame is `resetDictionary`'s own. -/
theorem clearResetsTheDictionary : Obligations.ClearResetsTheDictionary := by
  intro s hm
  obtain ⟨hsize, hmask⟩ := fresh_width hm
  exact ⟨resetDictionary s, rfl, hsize, hmask, resetDictionary_avail_toNat s, rfl, rfl⟩

/-- As long as `AVAIL` is at its launch value so is the width: the next width begins at `2 * CLEARCODE`, and two codes do
not reach it (R40, R41). -/
theorem Launched.codeSize_of_fresh_avail {s : State} (h : Launched s) (hfresh : s.avail.toNat = s.clearCode.toNat + 2) :
    s.codeSize.toNat = s.mincs.toNat + 1 := by
  have hlow := h.size_low
  have hfour := h.four_le_clear
  have hclear := h.clear_eq
  have hbelow : 2 ^ (s.codeSize.toNat - 1) < 2 ^ (s.mincs.toNat + 1) := by
    calc 2 ^ (s.codeSize.toNat - 1) ≤ s.avail.toNat := h.avail_width
      _ < 2 ^ (s.mincs.toNat + 1) := by rw [Nat.pow_succ]; omega
  have hexp : s.codeSize.toNat - 1 < s.mincs.toNat + 1 := (Nat.pow_lt_pow_iff_right (by decide)).mp hbelow
  omega

/-- With an empty previous code the dictionary registers already hold what `CLEAR` writes (R97, R140). -/
theorem Launched.resetDictionary_eq_self {s : State} (h : Launched s) (hempty : s.prevV = false) :
    resetDictionary s = s := by
  have hfresh := h.empty_avail hempty
  have hwidth := h.codeSize_of_fresh_avail hfresh
  obtain ⟨hsize, hmask⟩ := fresh_width h.mincs_high
  have hcodeSize : BitVec.ofNat 4 (s.mincs.toNat + 1) = s.codeSize :=
    BitVec.eq_of_toNat_eq (hsize.trans hwidth.symm)
  have hcodeMask : BitVec.ofNat 12 (1 <<< (s.mincs.toNat + 1) - 1) = s.codeMask :=
    BitVec.eq_of_toNat_eq (by rw [hmask, h.mask_eq, hwidth])
  have havail : BitVec.ofNat 13 (s.clearCode.toNat + 2) = s.avail :=
    BitVec.eq_of_toNat_eq ((resetDictionary_avail_toNat s).trans hfresh.symm)
  rw [resetDictionary, hcodeSize, hcodeMask, havail, ← hempty]

/-- Settles O17: a run is launched, so with an empty previous code there is nothing to reset. -/
theorem redundantClearChangesNothing : Obligations.RedundantClearChangesNothing :=
  fun _ h hr hempty => congrArg Host.Outcome.next ((h.launched hr).resetDictionary_eq_self hempty)

/-! ### `EOI` and `INVALID` -/

/-- A stop leaves the output short where it was not full: `OUTPOS` still counts the decoded indices (R23, R195). -/
theorem stop_short (c : Cause) {s : State} (h : s.outPos.toNat < s.pixCnt.toNat) : (stop c s).short = true :=
  (stop c s).short_iff.mpr ⟨rfl, h⟩

/-- Settles O18: `EOI` is `stop(EOI)`, and that cause is not a malformed stream's. -/
theorem eoiStopsTheRun : Obligations.EoiStopsTheRun :=
  fun s => ⟨stop .eoi s, rfl, stop_effect .eoi s, rfl, stop_short .eoi⟩

/-- Settles O19: `INVALID` is `stop(INVALID)`, whatever the code. -/
theorem invalidStopsTheRun : Obligations.InvalidStopsTheRun :=
  fun s _ => ⟨stop .invalid s, rfl, stop_effect .invalid s, rfl, stop_short .invalid⟩

end Sys2Proof.Machine
end

section
/-! PROOFS. The data codes (R160 to R169): from an empty stack each puts its string there and ends alike, whatever else the
state holds; and the growth test (R164). -/

namespace Sys2Proof.Machine

/-! ### What each data code completes with, from an empty stack -/

/-- `LIT` needs room for one symbol only (R166). -/
theorem execLit_of_empty_stack {s : State} (hs : s.stk = []) (c : Code) :
    execLit c s = .next (dataUpdate c (c.setWidth 8) [] s) := by
  refine execLit_next_iff.mpr ⟨_, push_of_room _ (by rw [hs]; decide), ?_⟩
  rw [hs]
  exact finishData_on hs c _ []

/-- `ENTRY` needs a stack as deep as the string of its code (R167). -/
theorem execEntry_of_str {s : State} (hs : s.stk = []) {c : Code} {f : Sym} {l : List Sym}
    (hstr : Str s.clearCode.toNat s.tbl c (f :: l)) (hlen : (f :: l).length ≤ 4096) :
    execEntry c s = .next (dataUpdate c f l s) := by
  have hroom : s.stk.length + (f :: l).length ≤ 4096 := by rw [hs]; simpa using hlen
  refine execEntry_next_iff.mpr ⟨_, walk_of_str hstr hroom, ?_⟩
  rw [hs, List.append_nil]
  exact finishData_on hs c f l

/-- `KWKWK` needs one slot more than the string of the previous code, for the `FIRST` under it (R168). -/
theorem execKwkwk_of_str {s : State} (hs : s.stk = []) {f : Sym} {l : List Sym} (c : Code)
    (hstr : Str s.clearCode.toNat s.tbl s.prev (f :: l)) (hlen : (f :: l).length < 4096) :
    execKwkwk c s = .next (dataUpdate c f (l ++ [s.firstSym]) s) := by
  have hpush : push s.firstSym s = .ok { s with stk := [s.firstSym] } := by
    rw [push_of_room _ (by rw [hs]; decide), hs]
  have hwalk := walk_of_str (s := { s with stk := [s.firstSym] }) hstr (by simp only [List.length_singleton]; omega)
  exact execKwkwk_next_iff.mpr ⟨_, _, hpush, hwalk, finishData_on hs c f _⟩

/-! ### The effect of each data code -/

/-- Settles O20: the one symbol on the stack is emitted, and the end of a data code does the rest. -/
theorem litEmitsItsSymbol : Obligations.LitEmitsItsSymbol :=
  fun s c hs => ⟨_, execLit_of_empty_stack hs c, dataUpdate_effect s c _ _⟩

/-- Settles O21: the chain walk leaves exactly the string of the code on the stack. -/
theorem entryEmitsItsString : Obligations.EntryEmitsItsString :=
  fun s c f l hs hstr hlen => ⟨_, execEntry_of_str hs hstr hlen, dataUpdate_effect s c f (f :: l)⟩

/-- Settles O22: the chain walk from the previous code stands on the `FIRST` pushed before it. -/
theorem kwkwkRepeatsThePrevious : Obligations.KwkwkRepeatsThePrevious :=
  fun s c f l hs hstr hlen => ⟨_, execKwkwk_of_str hs c hstr hlen, dataUpdate_effect s c f (f :: l ++ [s.firstSym])⟩

/-- Settles O23: in a run `FIRST` begins the string of the previous code (R34), so the entry added at `AVAIL` spells what was
emitted. -/
theorem kwkwkNamesWhatItEmits : Obligations.KwkwkNamesWhatItEmits := by
  intro s c h hr hpv hc
  have hlaunched := h.launched hr
  obtain ⟨l, hprev⟩ := hlaunched.prev_string hpv
  have hdata : DataString s (.kwkwk c) c s.firstSym (l ++ [s.firstSym]) := .kwkwk hc hpv hprev
  have heffect := dataUpdate_effect s c s.firstSym (s.firstSym :: l ++ [s.firstSym])
  obtain ⟨_, _, _, hnamed⟩ := hdata.after hlaunched heffect
  refine ⟨_, l, hdata.exec_eq hlaunched h.stack_empty, hprev, heffect, ?_⟩
  rwa [notePrev_clearCode, tableAdd_clearCode, emit_clearCode]

/-- Settles O25, by `Launched.grows_iff`: with room `AVAIL` is below `2^CODESIZE`, so the masked sum is zero only there. -/
theorem growthTestMeansPowerOfTwo : Obligations.GrowthTestMeansPowerOfTwo := fun _ h hroom => h.grows_iff hroom

end Sys2Proof.Machine
end

section
/-! PROOFS. The stop sequence (R195). -/

namespace Sys2Proof.Machine

/-- Settles O15: `stop_effect` says clause by clause what the stop leaves, with the read of `OUT` by `stop_read_out`. -/
theorem stopFillsTheTail : Obligations.StopFillsTheTail :=
  fun s c => stop_effect c s

end Sys2Proof.Machine
end

section
/-! PROOFS. Every run ends (R225): a step that does not end the run takes at least three bits of the input. -/

namespace Sys2Proof.Machine

/-- No code is narrower than three bits (R24, R40). -/
theorem Launched.three_le_codeSize {s : State} (h : Launched s) : 3 ≤ s.codeSize.toNat :=
  Nat.le_trans (Nat.succ_le_succ h.mincs_low) h.size_low

/-- A step of a run left to itself ends the run, or the run goes on with the same input at least three bits further on in
it (R49, R225). -/
theorem Inv.step_done_or_advances {s : State} (h : Inv s) (hr : s.phase = .run) (hh : s.host = []) :
    ∃ t, step s = .next t ∧ (t.phase = .done ∨
      (t.phase = .run ∧ t.host = [] ∧ t.inLen = s.inLen ∧ s.bitPos + 3 ≤ t.bitPos)) := by
  obtain ⟨t, hs⟩ := runNeverFaults s h hr hh
  refine ⟨t, hs, ?_⟩
  obtain ⟨hmove, _⟩ := programCounterMovesByTheWidth s t h hr hh hs
  obtain ⟨_, _, _, _, hlen, _, hhost⟩ := launchValuesAndInputAreConstant s t hh hs
  have hwidth := (h.launched hr).three_le_codeSize
  rw [step_run hh hr] at hs
  rcases hmove with hpos | ⟨_, hdone, _⟩
  · rcases codeStep_phase hs with hp | ⟨hdone, _⟩
    · exact .inr ⟨hp.trans hr, hhost, hlen, by omega⟩
    · exact .inl hdone
  · exact .inl hdone

/-- A run left to itself with fewer than `3*n` bits of input left is over after at most `n` steps: `BITPOS`
never passes the end of the input, and every step but the last takes three bits (R225). -/
theorem Inv.run_reaches_done (n : Nat) {s : State} (h : Inv s) (hr : s.phase = .run) (hh : s.host = [])
    (hleft : 8 * s.inLen < s.bitPos + 3 * n) :
    ∃ (k : Nat) (t : State), k ≤ n ∧ Sys2Proof.core.run k s = .next t ∧ t.phase = .done := by
  induction n generalizing s with
  | zero => exact absurd (h.fillOk hr).bitPos_le (by omega)
  | succ n ih =>
    obtain ⟨t, hs, hdone | ⟨hrt, hht, hlen, hpos⟩⟩ := h.step_done_or_advances hr hh
    · exact ⟨1, t, Nat.le_add_left 1 n, run_succ_of_step 0 hs, hdone⟩
    · obtain ⟨k, u, hk, hrun, hdone⟩ := ih (stepKeepsTheInvariant s t h hs) hrt hht (by omega)
      exact ⟨k + 1, u, Nat.succ_le_succ hk, (run_succ_of_step k hs).trans hrun, hdone⟩

/-- Settles O37: fewer than `3*(floor(8*INLEN / 3) + 1)` bits are left wherever the run stands. -/
theorem everyRunEnds : Obligations.EveryRunEnds :=
  fun _ h hr hh => h.run_reaches_done _ hr hh (by omega)

end Sys2Proof.Machine
end

section
/-! PROOFS. The host's part: the length it gives with a `START`, the reset, and its write of `IN` (R220, R221, R231, R234). -/

namespace Sys2Proof.Machine

/-- Settles O28: with a legal `MIN_CODE_SIZE` only the test of the length is left, and it fails. -/
theorem wrongInputLengthIsRefused : Obligations.WrongInputLengthIsRefused := by
  intro s m n len hp h2 h8 hlen
  calc execStart m n len s
    _ = if s.suppliedBytes = len then .next (launch m n len s)
        else .refused (.inputLengthMismatch len s.suppliedBytes) := (if_neg hp).trans (if_pos ⟨h2, h8⟩)
    _ = .refused (.inputLengthMismatch len s.suppliedBytes) := if_neg hlen

/-- Settles O31: whatever the phase, the step is the reset, which leaves the power-on state and the host's coming moves. -/
theorem resetAbandonsTheRun : Obligations.ResetAbandonsTheRun :=
  fun _ rest hh => ⟨{ State.reset with host := rest }, step_of_host hh, rfl, rfl, rfl, fun _ => rfl, rfl⟩

/-- Cells from index 0 on read as the list they were made from. -/
theorem Memory.read_cells_zero {α : Type} (vs : List α) (i : Nat) : Memory.read (Memory.cells 0 vs) i = vs[i]? := by
  rw [Memory.read_cells, if_pos (Nat.zero_le i), Nat.sub_zero]

/-- In a run the write of `IN` is refused (log 11). -/
theorem hostWriteIn_of_run {s : State} (h : s.phase = .run) (bytes : List Byte) :
    hostWriteIn bytes s = .refused .inputWrittenInRun := if_pos h

/-- Outside a run the write of `IN` leaves exactly its bytes there (R231, R234). -/
theorem hostWriteIn_of_rest {s : State} (h : s.phase ≠ .run) (bytes : List Byte) :
    hostWriteIn bytes s = .next { s with inp := Memory.cells 0 bytes } := if_neg h

/-- Settles O32: the step is the write, refused in a run; outside one, `IN` is the cells of the bytes. -/
theorem hostWritesInput : Obligations.HostWritesInput := by
  intro s bytes rest hh
  rw [step_of_host hh]
  refine ⟨fun hr => hostWriteIn_of_run (s := { s with host := rest }) hr bytes, fun hr =>
    ⟨_, hostWriteIn_of_rest (s := { s with host := rest }) hr bytes, fun i _ => ?_, fun i hi => ?_,
      Memory.length_cells bytes 0, rfl⟩⟩
  · exact Memory.read_cells_zero bytes i
  · exact (Memory.read_cells_zero bytes i).trans (List.getElem?_eq_none hi)

/-- Settles O35: the invariant of a running block has the length, and `IN` is a sequence. -/
theorem runHasItsWholeInput : Obligations.RunHasItsWholeInput :=
  fun _ h hr => ⟨(h.when_running hr).input_whole, h.read_inp hr⟩

end Sys2Proof.Machine
end
